-- ==== Sys2Proof/Word.lean ====
section
/-! DEFINITION. The word type of the Computer: ADDR_W = DATA_W = 8 (spec/00_scope.md R8). -/

namespace Sys2Proof

/-- A byte: a data word, an opcode or an address of the Computer (R8). Bit 0 is the least significant (R11). -/
abbrev Byte := BitVec 8

end Sys2Proof
end

