-- ==== Sys2Proof/Config.lean ====
section
/-! DEFINITION. The construction-time parameters of spec/00_scope.md R10 and spec/92_eei_decisions.md, and the free values.
A parameter is "fixed for the lifetime of a machine instance"; State carries the record so that a statement can be made at
the spec's value or at every value (log 3). -/

namespace Sys2Proof

/-- P_BORROW_POLARITY (D6, R311): what C means after SUB and SBB. -/
inductive BorrowPolarity where
  | carryOut
  | borrow
  deriving DecidableEq, Repr

/-- P_RESET_MIDRUN (D9, R433): a reset while CR holds an opcode with a phase-3 action. -/
inductive ResetMidrun where
  | refuse
  | clean
  deriving DecidableEq, Repr

/-- P_PRE_RESET_CLOCK (D33, R285): a phase step while the ring is NONE. -/
inductive PreResetClock where
  | refuse
  | idle
  deriving DecidableEq, Repr

/-- P_RIPPLE_EDGE (D25, R231): the clock edge that a ripple counter counts. -/
inductive RippleEdge where
  | rising
  | falling
  deriving DecidableEq, Repr

/-- P_NOTIFY_VALUE (D16, R143): the argument a queued callback is invoked with. -/
inductive NotifyValue where
  | captured
  | current
  deriving DecidableEq, Repr

/-- The parameters of R10, each defaulting to the spec's value. `memInit` lists the bytes of P_MEM_INIT that are not 0x00.
`drainFuel` is the model's own (R145: "A model runs a drain under fuel"; log 11). -/
structure Config where
  accInit : Byte := 0x00#8
  zInit : Bool := false
  cInit : Bool := false
  crInit : Byte := 0x00#8
  arInit : Byte := 0x00#8
  memInit : List Host.Cell := []
  arithWriteback : Bool := false
  borrowPolarity : BorrowPolarity := .carryOut
  resetMidrun : ResetMidrun := .refuse
  preResetClock : PreResetClock := .refuse
  rippleEdge : RippleEdge := .rising
  notifyValue : NotifyValue := .captured
  drainFuel : Nat := 1048576
  deriving DecidableEq, Repr

/-- The parameters at the spec's values (spec/92_eei_decisions.md, "Parameters"). -/
def Config.spec : Config := {}

/-- The n-th free Bool: the set-reset latch with both inputs true (R201: "a free Bool with no law"). DESIGN CHOICE, log 7. -/
opaque Config.latchDraw : Nat → Bool

/-- The n-th free byte: a memory row that an address bus may pass through while a write line is high (I8, R441).
DESIGN CHOICE, log 8. -/
opaque Config.hazardByte : Nat → Byte

/-- What drains and constructions take from outside the engine's state: P_NOTIFY_VALUE, the fuel, the source of draws for R201, and
P_RIPPLE_EDGE (R231). It is an argument, never a part of State. -/
structure Env where
  notify : NotifyValue
  fuel : Nat
  draw : Nat → Bool
  edge : RippleEdge

/-- The environment a machine with configuration `k` runs its engine and builds its networks in (R10). -/
def Env.ofConfig (k : Config) : Env := ⟨k.notifyValue, k.drainFuel, Config.latchDraw, k.rippleEdge⟩

end Sys2Proof
end

