-- ==== Sys2Proof/Syntax.lean ====
section
/-! DEFINITION. The twelve instructions of spec/30_encoding.md R102, one constructor per row of spec/opcode_table.json.
The 244 undefined opcodes (R104) have no row and no constructor: `decodePair` rejects them by name and the third phase
gives them the no-op of R337 (log 23). -/

namespace Sys2Proof

/-- An instruction with its operand byte (R100). The operand is an absolute address, used unchanged (R101); HLT keeps the
byte it ignores, so that no bit of the encoding is dropped (log 21). -/
inductive Instr where
  | lod (addr : Byte)
  | sto (addr : Byte)
  | add (addr : Byte)
  | sub (addr : Byte)
  | adc (addr : Byte)
  | sbb (addr : Byte)
  | jmp (addr : Byte)
  | jiz (addr : Byte)
  | jic (addr : Byte)
  | jnz (addr : Byte)
  | jnc (addr : Byte)
  | hlt (ignored : Byte)
  deriving DecidableEq, Repr

end Sys2Proof
end

