-- ==== Sys2Proof/WellFormed.lean ====
section
/-! DEFINITION. The checks made on terms before they are given a meaning. Every opcode with every operand byte is a defined
instruction (spec/30_encoding.md R105), so the check on Instr admits every term; the checks that can fail are those on
configurations, host integers and library constructions (spec/60_exceptions.md R402, R403). -/

namespace Sys2Proof

/-- Every operand byte is allowed with every opcode (R105, R72): no instruction is ill-formed (log 22). -/
def Instr.wellFormed : Instr → Bool
  | .lod _ | .sto _ | .add _ | .sub _ | .adc _ | .sbb _ => true
  | .jmp _ | .jiz _ | .jic _ | .jnz _ | .jnc _ | .hlt _ => true

/-- P_MEM_INIT gives bytes to the 256 addresses only (R8, R10). -/
def Config.wellFormed (k : Config) : Bool := k.memInit.all fun c => decide (c.1 < 256)

/-- R70: an integer fits a bus of width `w` when 0 ≤ v < 2^w; negative integers do not fit (D30). -/
def fitsBus (v : Int) (w : Nat) : Bool := decide (0 ≤ v) && decide (v < 2 ^ w)

/-- R9: the width of a library component is N ≥ 1 (log 32). -/
def widthOk (w : Nat) : Bool := decide (1 ≤ w)

/-- R175: the inputs of a bus selector all have width `w`. -/
def busWidthsOk {α : Type} (w : Nat) (buses : List (List α)) : Bool := buses.all fun b => b.length == w

/-- R173: a multi-input gate has at least one operand (D22). -/
def gateArityOk {α : Type} (operands : List α) : Bool := !operands.isEmpty

/-- R179: "Buses of unequal width are refused at construction". -/
def adderWidthsOk {α β : Type} (x : List α) (y : List β) : Bool := x.length == y.length

end Sys2Proof
end

