-- ==== Sys2Proof/Decode.lean ====
section
/-! DEFINITION. Decoding by exact match on the whole opcode byte (spec/30_encoding.md R103), and the encoder of R100. -/

namespace Sys2Proof

/-- Why bytes are no instruction of the table. -/
inductive DecodeReject where
  /-- One of the 244 undefined opcodes (R104); the machine runs it as a no-op (R337). -/
  | undefinedOpcode (op : Byte)
  /-- Fewer than the two bytes every instruction has (R106). -/
  | truncated
  deriving DecidableEq, Repr

/-- The instruction whose opcode byte is `op` and operand byte `x` (R102): one exact comparison per decode line (R103). -/
def decodePair (op x : Byte) : Except DecodeReject Instr :=
  if op = 0x10#8 then .ok (.lod x)
  else if op = 0x11#8 then .ok (.sto x)
  else if op = 0x20#8 then .ok (.add x)
  else if op = 0x21#8 then .ok (.sub x)
  else if op = 0x22#8 then .ok (.adc x)
  else if op = 0x23#8 then .ok (.sbb x)
  else if op = 0x30#8 then .ok (.jmp x)
  else if op = 0x31#8 then .ok (.jiz x)
  else if op = 0x32#8 then .ok (.jic x)
  else if op = 0x33#8 then .ok (.jnz x)
  else if op = 0x34#8 then .ok (.jnc x)
  else if op = 0xFF#8 then .ok (.hlt x)
  else .error (.undefinedOpcode op)

/-- Decode the instruction at the front of a byte sequence, in fetch order (R100), with the bytes after it. -/
def decode : List Byte → Except DecodeReject (Instr × List Byte)
  | op :: x :: rest =>
    match decodePair op x with
    | .ok i => .ok (i, rest)
    | .error r => .error r
  | _ => .error .truncated

/-- The opcode byte of R102. -/
def opcodeOf : Instr → Byte
  | .lod _ => 0x10#8
  | .sto _ => 0x11#8
  | .add _ => 0x20#8
  | .sub _ => 0x21#8
  | .adc _ => 0x22#8
  | .sbb _ => 0x23#8
  | .jmp _ => 0x30#8
  | .jiz _ => 0x31#8
  | .jic _ => 0x32#8
  | .jnz _ => 0x33#8
  | .jnc _ => 0x34#8
  | .hlt _ => 0xFF#8

/-- The operand byte of R100. -/
def operandOf : Instr → Byte
  | .lod a | .sto a | .add a | .sub a | .adc a | .sbb a => a
  | .jmp a | .jiz a | .jic a | .jnz a | .jnc a | .hlt a => a

/-- The two bytes of an instruction, the opcode byte first (R100). -/
def encode (i : Instr) : List Byte := [opcodeOf i, operandOf i]

/-- The `j`-th byte of an instruction whose bits are `w` (bit 0 the least significant of the first byte), bits at and above
`nbits` reading 0. -/
def tableByte (nbits w j : Nat) : Byte := BitVec.ofNat 8 ((w % 2 ^ nbits) / 2 ^ (8 * j))

/-- The instruction the decoder reads from the bits `w` of an opcode-table row. -/
def decodeTableWord (nbits w : Nat) : Option Instr :=
  match decode [tableByte nbits w 0, tableByte nbits w 1] with
  | .ok (i, _) => some i
  | .error _ => none

end Sys2Proof
end

