-- ==== Sys2Proof/Machine/Memory.lean ====
section
/-! DEFINITION. The Computer's memory at the phase level (spec/20_memory.md R60 to R63): a list of (address, byte) pairs in
one canonical form. -/

namespace Sys2Proof.Machine

/-- The listed bytes, addresses strictly rising, none equal to `Memory.blank`. -/
abbrev Memory := List Host.Cell

/-- What an unlisted address reads as: 0x00, the spec's P_MEM_INIT (R34, D7; log 5). -/
def Memory.blank : Byte := 0x00#8

/-- R62: MemRead. -/
def Memory.read : Memory → Nat → Byte
  | [], _ => Memory.blank
  | (b, v) :: rest, a => if b = a then v else Memory.read rest a

/-- R63: MemWrite, keeping the canonical form (a byte equal to `Memory.blank` is not listed). -/
def Memory.write : Memory → Nat → Byte → Memory
  | [], a, v => if v = Memory.blank then [] else [(a, v)]
  | (b, w) :: rest, a, v =>
    if a < b then (if v = Memory.blank then (b, w) :: rest else (a, v) :: (b, w) :: rest)
    else if a = b then (if v = Memory.blank then rest else (a, v) :: rest)
    else (b, w) :: Memory.write rest a v

/-- Every listed address is at least `lo`, below 256, strictly rising, and every listed byte differs from the blank. -/
def Memory.wfFrom : Nat → Memory → Bool
  | _, [] => true
  | lo, (a, v) :: rest => decide (lo ≤ a) && decide (a < 256) && decide (v ≠ Memory.blank) && Memory.wfFrom (a + 1) rest

/-- The canonical form: 256 addresses (R8), strictly rising, no blank listed. -/
def Memory.wf (m : Memory) : Bool := Memory.wfFrom 0 m

/-- The memory holding the given bytes, in canonical form; later cells win, and cells outside the address space are left out. -/
def Memory.ofCells (cells : List Host.Cell) : Memory :=
  cells.foldl (fun m c => if c.1 < 256 then Memory.write m c.1 c.2 else m) []

end Sys2Proof.Machine
end

