-- ==== Sys2Proof/Machine/State.lean ====
section
/-! DEFINITION. The state of the machine: spec/10_state.md R20 (the Computer, the console front end, the clock driver) and
R32 (the signal engine), as plain data; the reasons a step or a host call can stop; the machine at construction and reset. -/

namespace Sys2Proof.Machine

/-- The phase generator's one-hot output (R28): index 0 is P1, 1 is P2, 2 is P3; NONE is the all-false output. -/
inductive Ring where
  | none
  | p1
  | p2
  | p3
  deriving DecidableEq, Repr

/-- Why a host call ends in an error, or never returns. No instruction raises any of these (R400). -/
inductive Fault where
  /-- HostError(BitWidthOverflow) (R70, R402): raised by ConsoleLoad, ConsoleRead and bus writes. Safe: the spec ends the session. -/
  | bitWidthOverflow
  /-- R145: a drain used up its fuel before its queue was empty. Raised by every engine operation that drains. Safe. -/
  | didNotSettle
  /-- R267, R268: `run`, `run_until` used up its fuel before its condition held. Raised by the clock driver only. Safe. -/
  | didNotReturn
  deriving DecidableEq, Repr

/-- What the model refuses to give a meaning, as R403 lists. Each is safe: a claim that needs a next state is unprovable. -/
inductive Refusal where
  /-- An arm of `exec` without a meaning. No arm of this model uses it. Safe. -/
  | notModelled (mnemonic : String)
  /-- R285, P_PRE_RESET_CLOCK = refuse: a phase step while the ring is NONE. Raised by `phaseStep`. Safe. -/
  | clockBeforeReset
  /-- R286: a phase step while the reset line is asserted. Raised by `phaseStep`. Safe. -/
  | clockWithResetHeld
  /-- R433, P_RESET_MIDRUN = refuse: a reset while CR holds an opcode with a phase-3 action. Raised by `assertReset`. Safe. -/
  | resetMidInstruction
  /-- R131: a term that writes a constant. Raised by `Engine.writeSig`. Safe. -/
  | writesConstant
  /-- R173: a multi-input gate, selector or decoder of no operands. Raised by the gate constructors. Safe. -/
  | emptyGate
  /-- R179: buses of unequal width, of an adder. DESIGN CHOICE (log 36): any other component given buses that do not fit together, on which
  the spec is silent. Raised by the component constructors. Safe. -/
  | unequalWidths
  /-- R9: a library component of width 0 (log 32). Raised by the component constructors. Safe. -/
  | zeroWidth
  /-- R263, R403: a listener that writes a node or uses the console. Raised when the listener is invoked. Safe. -/
  | listenerActs
  /-- A handle that no node of the arena has (R32): a term, not a run-time outcome. Raised by the engine operations. Safe. -/
  | noSuchNode (n : Nat)
  deriving DecidableEq, Repr

/-- Why an engine operation or a construction has no result. -/
inductive Stop where
  | fault (f : Fault)
  | refused (r : Refusal)
  deriving DecidableEq, Repr

/-- A signal a gate can take: a constant, which is not a node (R131), or a node by its handle (R32). -/
inductive Sig where
  | const (b : Bool)
  | node (n : Nat)
  deriving DecidableEq, Repr

/-- The combining functions of R139. -/
inductive GateFn where
  | and
  | or
  deriving DecidableEq, Repr

/-- What a host listener does when invoked, beyond recording (R263). `stop` sets stop_req at every invocation, `stopAt k` at
the one that `k` earlier ones came before. The last two are the ones a model refuses (log 12). -/
inductive ListenerAct where
  | record
  | stop
  | stopAt (k : Nat)
  | writesNode (n : Nat) (b : Bool)
  | usesConsole
  deriving DecidableEq, Repr

/-- A subscriber callback is data (R13), of one of the kinds of R139. -/
inductive Callback where
  | not (out : Nat)
  | op2L (f : GateFn) (out other : Nat)
  | op2R (f : GateFn) (out other : Nat)
  | op2K (f : GateFn) (out : Nat) (k : Bool)
  | sr (q : Nat) (r s : Sig)
  | listener (id : Nat) (act : ListenerAct)
  deriving DecidableEq, Repr

/-- A node (R130): its value, its subscribers in insertion order, its tag and its group. -/
structure Node where
  value : Bool := false
  subs : List Callback := []
  tag : Option String := none
  group : Option (List Nat) := none
  deriving DecidableEq, Repr

/-- A queued invocation: the callback, the value captured at the write, and the node written (R133, R143). -/
structure Pending where
  cb : Callback
  arg : Bool
  src : Nat
  deriving DecidableEq, Repr

/-- One entry of the diagnostic log (R144, D31). -/
structure LogEntry where
  seq : Nat
  tag : String
  value : Bool
  group : Option Nat
  deriving DecidableEq, Repr

/-- The engine of one session (R32, R33). `seen` is what the listeners recorded, oldest first (R139); `stopReq` is the clock
driver's stop request, held here because listeners set it during a drain (R263); `draws` counts the free values drawn
(R201; log 7). -/
structure Engine where
  nodes : List Node := []
  queue : List Pending := []
  draining : Bool := false
  log : List LogEntry := []
  seq : Nat := 0
  seen : List (Nat × Bool) := []
  stopReq : Bool := false
  draws : Nat := 0
  deriving DecidableEq, Repr

/-- The handle of the clock driver's node (R260): the first node of the arena (log 19). -/
def clockNode : Nat := 0

/-- A session's engine at construction: the clock node alone, false (R34, R260). -/
def Engine.initial : Engine := { nodes := [{}] }

/-- The whole machine. Fields in the order of R20, then the reset line (R286), the engine (R32) and the fixed configuration (R10). -/
structure State where
  mem : Memory
  acc : Byte
  pc : Byte
  cr : Byte
  ar : Byte
  z : Bool
  c : Bool
  ring : Ring
  takeover : Bool
  ovAddr : Byte
  ovData : Byte
  ovWrite : Bool
  resetLine : Bool
  engine : Engine
  cfg : Config
  deriving DecidableEq, Repr

/-- The machine at construction, before any reset (R34). -/
def State.construct (k : Config) : State where
  mem := Memory.ofCells k.memInit
  acc := k.accInit
  pc := 0x00#8
  cr := k.crInit
  ar := k.arInit
  z := k.zInit
  c := k.cInit
  ring := .none
  takeover := false
  ovAddr := 0x00#8
  ovData := 0x00#8
  ovWrite := false
  resetLine := false
  engine := Engine.initial
  cfg := k

/-- The machine right after reset: constructed at the spec's values (R34), then reset, which writes only PC and ring (R35). -/
def State.reset : State := { State.construct Config.spec with pc := 0x00#8, ring := .p3 }

/-- The clock driver's stop request (R20). -/
def State.stopReq (s : State) : Bool := s.engine.stopReq

/-- The phase-level state: exactly the fields of R20. -/
structure PhaseState where
  mem : Memory
  acc : Byte
  pc : Byte
  cr : Byte
  ar : Byte
  z : Bool
  c : Bool
  ring : Ring
  takeover : Bool
  ovAddr : Byte
  ovData : Byte
  ovWrite : Bool
  stopReq : Bool
  deriving DecidableEq, Repr

/-- What of a machine the phase level shows (R20): all that a predicate of R267 can read. -/
def State.phaseState (s : State) : PhaseState where
  mem := s.mem
  acc := s.acc
  pc := s.pc
  cr := s.cr
  ar := s.ar
  z := s.z
  c := s.c
  ring := s.ring
  takeover := s.takeover
  ovAddr := s.ovAddr
  ovData := s.ovData
  ovWrite := s.ovWrite
  stopReq := s.stopReq

end Sys2Proof.Machine
end

