-- ==== Sys2Proof/Machine/Bus.lean ====
section
/-! DEFINITION. Buses: "index 0 is the least-significant bit" (spec/00_scope.md R11), and the conversion of a host integer to a
bus (spec/20_memory.md R70). -/

namespace Sys2Proof.Machine

/-- R11: value(bus) = Σ_i 2^i × bit[i]. -/
def busValue : List Bool → Nat
  | [] => 0
  | b :: rest => b.toNat + 2 * busValue rest

/-- The `w` low bits of `v`, index 0 first. -/
def bitsOf : (w : Nat) → (v : Nat) → List Bool
  | 0, _ => []
  | w + 1, v => (v % 2 == 1) :: bitsOf w (v / 2)

/-- R70: ToBus(v, w). `none` is HostError(BitWidthOverflow); no integer is ever truncated. -/
def toBus (v : Int) (w : Nat) : Option (List Bool) :=
  if fitsBus v w then some (bitsOf w v.toNat) else none

/-- ToBus(v, 8) as a byte, for the console's address and data buses (R68, R69). -/
def toByteBus (v : Int) : Option Byte :=
  if fitsBus v 8 then some (BitVec.ofInt 8 v) else none

end Sys2Proof.Machine
end

