-- ==== Sys2Proof/Machine/Ops.lean ====
section
/-! DEFINITION. The named operations over registers and memory. One setter per field; every access of the Computer to the
array goes through `cpuRead` and `cpuWrite` (spec/20_memory.md R84).

TAKING AN EXCEPTION AND RETURNING FROM ONE: the machine has neither. "The Computer raises no synchronous exception" (R400), "has
no interrupt source" (R404), and "There is no trap entry" and "no trap return instruction" (R406), so there is no operation for
them here (log 2). -/

namespace Sys2Proof.Machine

/-- The outcome of one instruction, phase or host call on a machine. -/
abbrev Result := Host.Outcome State Fault Refusal

/-- Go on from a next state; a fault or a refusal ends the sequence. -/
def andThen (r : Result) (f : State → Result) : Result :=
  match r with
  | .next s => f s
  | .fault e => .fault e
  | .refused e => .refused e

/-- A stop of the engine as an outcome of the machine. -/
def Stop.toResult : Stop → Result
  | .fault f => .fault f
  | .refused r => .refused r

/-- The state of a next outcome. -/
def next? : Result → Option State
  | .next s => some s
  | .fault _ => none
  | .refused _ => none

namespace State

def setMem (s : State) (m : Memory) : State := { s with mem := m }
def setAcc (s : State) (v : Byte) : State := { s with acc := v }
def setPc (s : State) (v : Byte) : State := { s with pc := v }
def setCr (s : State) (v : Byte) : State := { s with cr := v }
def setAr (s : State) (v : Byte) : State := { s with ar := v }
def setZ (s : State) (b : Bool) : State := { s with z := b }
def setC (s : State) (b : Bool) : State := { s with c := b }
def setRing (s : State) (r : Ring) : State := { s with ring := r }
def setTakeoverLine (s : State) (b : Bool) : State := { s with takeover := b }
def setOvAddr (s : State) (v : Byte) : State := { s with ovAddr := v }
def setOvData (s : State) (v : Byte) : State := { s with ovData := v }
def setOvWrite (s : State) (b : Bool) : State := { s with ovWrite := b }
def setResetLine (s : State) (b : Bool) : State := { s with resetLine := b }
def setEngine (s : State) (e : Engine) : State := { s with engine := e }

/-- The byte the array holds at an address (R62: MemRead; no side effect). -/
def memRead (s : State) (a : Byte) : Byte := s.mem.read a.toNat

/-- R63: MemWrite sets MEM[a] and leaves every other address unchanged. -/
def memWrite (s : State) (a v : Byte) : State := s.setMem (s.mem.write a.toNat v)

/-- R84: CpuRead. With takeover true the Computer sees the byte at the override address. -/
def cpuRead (s : State) (a : Byte) : Byte := if s.takeover then s.memRead s.ovAddr else s.memRead a

/-- R84: CpuWrite. With takeover true the write is lost. -/
def cpuWrite (s : State) (a v : Byte) : State := if s.takeover then s else s.memWrite a v

/-- The counter's increment: "wraps silently on overflow" (R23, R231). -/
def bumpPc (s : State) : State := s.setPc (s.pc + 1#8)

end State

/-- R280, R235: P3 -> P1, P1 -> P2, P2 -> P3; a ring of all false stays so (R237). -/
def Ring.next : Ring → Ring
  | .none => .none
  | .p1 => .p2
  | .p2 => .p3
  | .p3 => .p1

/-- R281: P1 latches the opcode byte at PC into CR and advances PC. -/
def phase1 (s : State) : State := (s.setCr (s.cpuRead s.pc)).bumpPc

/-- R282: P2 latches the operand byte at PC into AR and advances PC; the same for every opcode. -/
def phase2 (s : State) : State := (s.setAr (s.cpuRead s.pc)).bumpPc

end Sys2Proof.Machine
end

