-- ==== Sys2Proof/Machine/Operands.lean ====
section
/-! DEFINITION. Operand forms. There is one addressing mode, absolute direct (spec/30_encoding.md R101): the operand byte is the
address of a data operand, or the target of a jump. -/

namespace Sys2Proof.Machine

/-- R101: the operand byte is used unchanged as an absolute address: no extension, scaling, offset or base. -/
def effectiveAddress (x : Byte) : Byte := x

/-- The data operand: the byte the Computer reads at the operand address in P3 (R101, R84). -/
def memOperand (s : State) (x : Byte) : Byte := s.cpuRead (effectiveAddress x)

/-- R180, R310: the adder's B input, the memory operand passed through the one's-complement inverter. -/
def invertIf (sub : Bool) (m : Byte) : Byte := if sub then ~~~m else m

end Sys2Proof.Machine
end

