-- ==== Sys2Proof/Machine/Flags.lean ====
section
/-! DEFINITION. The arithmetic unit's total and the flags (spec/47_arithmetic.md R310, R311), and the jump conditions
(spec/48_control_transfer.md R331 to R335). -/

namespace Sys2Proof.Machine

/-- The four opcodes of the arithmetic unit (R310). -/
inductive ArithOp where
  | add
  | sub
  | adc
  | sbb
  deriving DecidableEq, Repr

/-- R310: `sub` is true for SUB and SBB. -/
def ArithOp.inverts : ArithOp → Bool
  | .add | .adc => false
  | .sub | .sbb => true

/-- R310: the carry-in, from the opcode and C as it was before the instruction (R288). -/
def carryIn (p : BorrowPolarity) (op : ArithOp) (c : Bool) : Bool :=
  match op with
  | .add => false
  | .sub => true
  | .adc => c
  | .sbb =>
    match p with
    | .carryOut => c
    | .borrow => !c

/-- R310: t = ACC + y + cin, in 0 to 511, where y is the operand or its complement. -/
def arithTotal (p : BorrowPolarity) (op : ArithOp) (acc m : Byte) (c : Bool) : Nat :=
  acc.toNat + (invertIf op.inverts m).toNat + (carryIn p op c).toNat

/-- R310: t mod 256, the byte ACC takes. -/
def arithSum (t : Nat) : Byte := BitVec.ofNat 8 t

/-- R310: the adder's carry-out, t ≥ 256. -/
def carryOut (t : Nat) : Bool := decide (256 ≤ t)

/-- R311: "zero = NOR of all sum-bus bits". -/
def zeroFlag (sum : Byte) : Bool := sum == 0x00#8

/-- R311: CarryFlag(op, cout) under P_BORROW_POLARITY. -/
def carryFlag (p : BorrowPolarity) (op : ArithOp) (cout : Bool) : Bool :=
  match p with
  | .carryOut => cout
  | .borrow => if op.inverts then !cout else cout

/-- The conditions of the five jumps (R331 to R335). -/
inductive JumpCond where
  | always
  | zero
  | carry
  | notZero
  | notCarry
  deriving DecidableEq, Repr

/-- R330: cond(Z, C), on the flags as they stand at the start of P3 (R288). -/
def JumpCond.holds (k : JumpCond) (z c : Bool) : Bool :=
  match k with
  | .always => true
  | .zero => z
  | .carry => c
  | .notZero => !z
  | .notCarry => !c

end Sys2Proof.Machine
end

