-- ==== Sys2Proof/Machine/Arithmetic.lean ====
section
/-! DEFINITION. ADD, SUB, ADC, SBB (spec/47_arithmetic.md): the shared phase-3 action ArithP3 of R310 and its four opcodes. -/

namespace Sys2Proof.Machine

/-- R318: with P_ARITH_WRITEBACK the sum is also stored at the operand address; the spec's value is false. -/
def writeback (s : State) (a sum : Byte) : State :=
  if s.cfg.arithWriteback then s.cpuWrite (effectiveAddress a) sum else s

/-- R310: ArithP3(op). ACC, then Z and C from the old C, then the optional write-back. -/
def arithP3 (op : ArithOp) (a : Byte) (s : State) : State :=
  let t := arithTotal s.cfg.borrowPolarity op s.acc (memOperand s a) s.c
  let done := ((s.setAcc (arithSum t)).setZ (zeroFlag (arithSum t))).setC (carryFlag s.cfg.borrowPolarity op (carryOut t))
  writeback done a (arithSum t)

/-- R312: ACC + m, no carry-in. -/
def execAdd (a : Byte) (s : State) : Result := .next (arithP3 .add a s)

/-- R313: ACC − m; the adder's carry-in is the inversion flag. -/
def execSub (a : Byte) (s : State) : Result := .next (arithP3 .sub a s)

/-- R314: ACC + m + C. -/
def execAdc (a : Byte) (s : State) : Result := .next (arithP3 .adc a s)

/-- R315: ACC − m with the latched borrow. -/
def execSbb (a : Byte) (s : State) : Result := .next (arithP3 .sbb a s)

end Sys2Proof.Machine
end

