-- ==== Sys2Proof/Machine/Control.lean ====
section
/-! DEFINITION. The jumps, HLT and the undefined opcodes (spec/48_control_transfer.md): their phase-3 actions. -/

namespace Sys2Proof.Machine

/-- R330: if cond(Z, C) then PC <- AR; otherwise PC keeps the value P2 left. No memory access, no flag, no ACC. -/
def jumpP3 (k : JumpCond) (a : Byte) (s : State) : State :=
  if k.holds s.z s.c then s.setPc (effectiveAddress a) else s

/-- R331. -/
def execJmp (a : Byte) (s : State) : Result := .next (jumpP3 .always a s)

/-- R332: jump if Z = 1. -/
def execJiz (a : Byte) (s : State) : Result := .next (jumpP3 .zero a s)

/-- R333: jump if C = 1. -/
def execJic (a : Byte) (s : State) : Result := .next (jumpP3 .carry a s)

/-- R334: jump if Z = 0. -/
def execJnz (a : Byte) (s : State) : Result := .next (jumpP3 .notZero a s)

/-- R335: jump if C = 0. -/
def execJnc (a : Byte) (s : State) : Result := .next (jumpP3 .notCarry a s)

/-- R336: no decode line drives a P3 action for HLT. It stops the clock driver's `run`, not the machine (R289; log 13). -/
def execHlt (_ignored : Byte) (s : State) : Result := .next s

/-- R337: an undefined opcode's P3: every control signal stays false, no action. -/
def execUndefined (s : State) : Result := .next s

end Sys2Proof.Machine
end

