-- ==== Sys2Proof/Machine/Transfer.lean ====
section
/-! DEFINITION. LOD and STO (spec/46_data_transfer.md): their phase-3 actions. The operand `a` is what P2 latched into AR
(log 26). -/

namespace Sys2Proof.Machine

/-- R300: ACC <- CpuRead(AR). No flag is written. -/
def execLod (a : Byte) (s : State) : Result := .next (s.setAcc (memOperand s a))

/-- R301: CpuWrite(AR, ACC). No flag is written and ACC is unchanged. -/
def execSto (a : Byte) (s : State) : Result := .next (s.cpuWrite (effectiveAddress a) s.acc)

end Sys2Proof.Machine
end

