-- ==== Sys2Proof/Machine/Dispatch.lean ====
section
/-! DEFINITION. The phase-3 action of each instruction (spec/45_instruction_cycle.md R283): one arm per constructor. -/

namespace Sys2Proof.Machine

def exec (i : Instr) (s : State) : Host.Outcome State Fault Refusal :=
  match i with
  | .lod a => Sys2Proof.Machine.execLod a s
  | .sto a => Sys2Proof.Machine.execSto a s
  | .add a => Sys2Proof.Machine.execAdd a s
  | .sub a => Sys2Proof.Machine.execSub a s
  | .adc a => Sys2Proof.Machine.execAdc a s
  | .sbb a => Sys2Proof.Machine.execSbb a s
  | .jmp a => Sys2Proof.Machine.execJmp a s
  | .jiz a => Sys2Proof.Machine.execJiz a s
  | .jic a => Sys2Proof.Machine.execJic a s
  | .jnz a => Sys2Proof.Machine.execJnz a s
  | .jnc a => Sys2Proof.Machine.execJnc a s
  | .hlt x => Sys2Proof.Machine.execHlt x s

end Sys2Proof.Machine
end

