-- ==== Sys2Proof/Machine/Cycle.lean ====
section
/-! DEFINITION. The instruction cycle (spec/45_instruction_cycle.md): the phase step of R280, the instruction of R284, and where
the next instruction is fetched from. -/

namespace Sys2Proof.Machine

/-- R283: dispatch on CR with the operand in AR; an undefined opcode is the no-op of R337. -/
def phase3 (s : State) : Result :=
  match decodePair s.cr s.ar with
  | .ok i => exec i s
  | .error _ => execUndefined s

/-- R285: a step with ring = NONE, under P_PRE_RESET_CLOCK. -/
def unresetStep (s : State) : Result :=
  match s.cfg.preResetClock with
  | .refuse => .refused .clockBeforeReset
  | .idle => .next s

/-- R280: PhaseStep. It advances the ring and performs the new phase's action; refused while reset is held (R286). -/
def phaseStep (s : State) : Result :=
  if s.resetLine then .refused .clockWithResetHeld
  else
    match s.ring.next with
    | .none => unresetStep s
    | .p1 => .next (phase1 (s.setRing .p1))
    | .p2 => .next (phase2 (s.setRing .p2))
    | .p3 => phase3 (s.setRing .p3)

/-- R284: phase steps up to the next instruction boundary, ring = P3. From ring = P3 that is one whole instruction,
P3 ∘ P2 ∘ P1; from a boundary inside an instruction, the rest of it (log 1). -/
def instructionStep (s : State) : Result :=
  match s.ring with
  | .none => phaseStep s
  | .p3 => andThen (phaseStep s) fun s1 => andThen (phaseStep s1) phaseStep
  | .p1 => andThen (phaseStep s) phaseStep
  | .p2 => phaseStep s

/-- A machine about to run the two bytes `op`, `x` as its next instruction: the bytes at PC and PC + 1, the ring at an instruction
boundary, and the lines that would keep the Computer from fetching them released (log 14). -/
def placeInstruction (s : State) (op x : Byte) : State :=
  ((((s.memWrite s.pc op).memWrite (s.pc + 1#8) x).setRing .p3).setTakeoverLine false).setResetLine false

end Sys2Proof.Machine
end

