-- ==== Sys2Proof/Machine/Step.lean ====
section
/-! DEFINITION. One step of the machine: one whole instruction (spec/45_instruction_cycle.md R284; log 1). -/

namespace Sys2Proof.Machine

/-- Three phase steps from an instruction boundary (R284). -/
def step (s : State) : Host.Outcome State Fault Refusal := instructionStep s

/-- `s` with the instruction whose bits are `w` stored where `step` fetches its next instruction (log 14). -/
def State.withFetchWord (s : State) (nbits w : Nat) : State :=
  placeInstruction s (tableByte nbits w 0) (tableByte nbits w 1)

end Sys2Proof.Machine
end

