-- ==== Sys2Proof/Machine/Asm.lean ====
section
/-! DEFINITION. The assembly notation (spec/30_encoding.md R107, R108): what each line stands for, and how it is written. There is no
parser: the spec gives a notation, not an assembler. -/

namespace Sys2Proof.Machine

/-- The mnemonic of R102. -/
def mnemonic : Instr → String
  | .lod _ => "LOD"
  | .sto _ => "STO"
  | .add _ => "ADD"
  | .sub _ => "SUB"
  | .adc _ => "ADC"
  | .sbb _ => "SBB"
  | .jmp _ => "JMP"
  | .jiz _ => "JIZ"
  | .jic _ => "JIC"
  | .jnz _ => "JNZ"
  | .jnc _ => "JNC"
  | .hlt _ => "HLT"

/-- A hexadecimal digit, capital letters. -/
def hexDigit (n : Nat) : String :=
  match "0123456789ABCDEF".toList[n]? with
  | some ch => ch.toString
  | none => "?"

/-- Two hexadecimal digits. -/
def hexByte (b : Byte) : String := hexDigit (b.toNat / 16) ++ hexDigit (b.toNat % 16)

/-- R107: `MNEMONIC 0xHH`; HLT is written with no operand. -/
def asmText : Instr → String
  | .hlt _ => "HLT"
  | i => mnemonic i ++ " 0x" ++ hexByte (operandOf i)

/-- R108: a line of source: an instruction with its operand, a bare HLT, or a data byte. -/
inductive AsmLine where
  | instr (i : Instr)
  | bareHlt
  | byte (b : Byte)
  deriving DecidableEq, Repr

/-- R108: the bytes of a line; the operand byte of a bare HLT is 0x00. -/
def assembleLine : AsmLine → List Byte
  | .instr i => encode i
  | .bareHlt => encode (.hlt 0x00#8)
  | .byte b => [b]

/-- The bytes of a program, lines in order (R109). -/
def assemble (lines : List AsmLine) : List Byte := lines.flatMap assembleLine

/-- R108: a listing line `aa: oo pp  MNEMONIC 0xpp`. -/
def listingLine (at_ : Byte) (i : Instr) : String :=
  hexByte at_ ++ ": " ++ hexByte (opcodeOf i) ++ " " ++ hexByte (operandOf i) ++ "  " ++ asmText i

end Sys2Proof.Machine
end

