-- ==== Sys2Proof/Machine/Console.lean ====
section
/-! DEFINITION. The console at the phase level (spec/20_memory.md R66 to R70): its lines, its two protocols, and what the array sees.
The lines change between phases only, where PRI.write is false (R83). -/

namespace Sys2Proof.Machine

/-- What a host call gives back. -/
inductive Reply (α : Type) where
  /-- The call returned a value. -/
  | returned (v : α) (s : State)
  /-- HostError(BitWidthOverflow) (R402): the call ended at the failing conversion; `left` keeps its earlier effects (R68). -/
  | hostError (left : State)
  /-- The call never returns, within its fuel (R145, R267). -/
  | stuck (f : Fault)
  /-- The model gives the call no meaning (R403). -/
  | refused (r : Refusal)

/-- The state a call leaves, where it leaves one. -/
def Reply.state? {α : Type} : Reply α → Option State
  | .returned _ s => some s
  | .hostError s => some s
  | .stuck _ => none
  | .refused _ => none

/-- The value a call returned. -/
def Reply.value? {α : Type} : Reply α → Option α
  | .returned v _ => some v
  | .hostError _ => none
  | .stuck _ => none
  | .refused _ => none

/-- True of a call that ended in HostError(BitWidthOverflow). -/
def Reply.isHostError {α : Type} : Reply α → Bool
  | .hostError _ => true
  | .returned _ _ => false
  | .stuck _ => false
  | .refused _ => false

namespace State

/-- R83: the address the Computer drives at a phase boundary: PC in P1 and P2, AR in P3. The spec gives none for NONE (log 9). -/
def priAddr (s : State) : Option Byte :=
  match s.ring with
  | .none => none
  | .p1 => some s.pc
  | .p2 => some s.pc
  | .p3 => some s.ar

/-- R66: eff.addr. -/
def effAddr (s : State) : Option Byte := if s.takeover then some s.ovAddr else s.priAddr

/-- R66: eff.data; PRI.data is ACC (R83). -/
def effData (s : State) : Byte := if s.takeover then s.ovData else s.acc

/-- R66: eff.write; PRI.write is false at every phase boundary (R83). -/
def effWrite (s : State) : Bool := s.takeover && s.ovWrite

/-- R62: the array's output at the effective address. -/
def arrayOutput (s : State) : Option Byte := s.effAddr.map s.memRead

/-- R63: while the write line is high, the addressed row tracks the data bus. -/
def track (s : State) : State :=
  if s.effWrite then s.memWrite s.ovAddr s.ovData else s

/-- One free byte drawn into address `a` (I8; log 8). -/
def smudge (s : State) (a : Byte) : State :=
  (s.memWrite a (Config.hazardByte s.engine.draws)).setEngine { s.engine with draws := s.engine.draws + 1 }

end State

/-- Whether an address bus that changes between `x` and `y` can pass through `a`: `a` agrees with both on every bit they share.
With `x` unknown, any address. -/
def onPath (x : Option Byte) (y a : Byte) : Bool :=
  match x with
  | none => true
  | some x => ((a ^^^ y) &&& ~~~(x ^^^ y)) == 0x00#8

/-- R64, R441, I8: a free byte at every address the bus can pass through. -/
def passThrough (x : Option Byte) (y : Byte) (s : State) : State :=
  (List.range 256).foldl (fun s a => if onPath x y (BitVec.ofNat 8 a) then s.smudge (BitVec.ofNat 8 a) else s) s

/-- OV.addr <- v. With the write line reaching the array, the addresses passed are hazards; the old and the new address end
holding the data (R441). -/
def driveAddr (v : Byte) (s : State) : State :=
  if s.effWrite && v != s.ovAddr then ((passThrough (some s.ovAddr) v s).track.setOvAddr v).track
  else (s.setOvAddr v).track

/-- OV.data <- v: the addressed row tracks it while the write line is high (R63). -/
def driveData (v : Byte) (s : State) : State := (s.setOvData v).track

/-- OV.write <- b. -/
def driveWrite (b : Bool) (s : State) : State := (s.setOvWrite b).track

/-- takeover <- b. Switching while OV.write is high presents a mixed triple to the array (R442): hazards between the two
addresses. With the write line low, the switch touches no byte. -/
def driveTakeover (b : Bool) (s : State) : State :=
  if s.ovWrite && b != s.takeover then ((passThrough s.priAddr s.ovAddr s).setTakeoverLine b).track
  else (s.setTakeoverLine b).track

/-- The pulse of R68: one byte written at OV.addr. -/
def pulseWrite (s : State) : State := driveWrite false (driveWrite true s)

/-- The loop of R68, from address `a`. -/
def consoleLoadFrom : Int → List Int → State → Reply Unit
  | _, [], s => .returned () (driveTakeover false s)
  | a, b :: rest, s =>
    match toByteBus a with
    | none => .hostError s
    | some av =>
      let s1 := driveAddr av s
      match toByteBus b with
      | none => .hostError s1
      | some bv => consoleLoadFrom (a + 1) rest (pulseWrite (driveData bv s1))

/-- R68: ConsoleLoad(A, [b_0 .. b_{k-1}]). -/
def consoleLoad (a : Int) (bytes : List Int) (s : State) : Reply Unit := consoleLoadFrom a bytes (driveTakeover true s)

/-- R69: ConsoleRead(A): the output at A, with OV.addr left at A and takeover released (D39). -/
def consoleRead (a : Int) (s : State) : Reply Byte :=
  let s1 := driveTakeover true s
  match toByteBus a with
  | none => .hostError s1
  | some av =>
    let s2 := driveAddr av s1
    .returned (s2.memRead s2.ovAddr) (driveTakeover false s2)

end Sys2Proof.Machine
end

