-- ==== Sys2Proof/Machine/Engine.lean ====
section
/-! DEFINITION. The signal and propagation engine (spec/40_signal_engine.md): Write and the drain (R133, R134), Subscribe (R136),
Unsubscribe (R137), the callbacks (R139) and the log (R144). A drain runs under the fuel of its environment (R145). -/

namespace Sys2Proof.Machine

/-- The combining functions of R139 and R171. -/
def GateFn.apply : GateFn → Bool → Bool → Bool
  | .and, a, b => a && b
  | .or, a, b => a || b

namespace Engine

/-- R132: the current value of a node, with no side effect. DESIGN CHOICE (log 30): a handle of no node reads false; Write and Subscribe
refuse it. -/
def read (e : Engine) (n : Nat) : Bool :=
  match e.nodes[n]? with
  | some d => d.value
  | none => false

/-- The value of a signal: a constant's own (R131), or its node's. -/
def readSig (e : Engine) : Sig → Bool
  | .const b => b
  | .node n => e.read n

/-- The integer value of a list of nodes (R11, R144). -/
def readNodes (e : Engine) (ns : List Nat) : Nat := busValue (ns.map e.read)

/-- The values of a bus of signals. -/
def readBus (e : Engine) (xs : List Sig) : List Bool := xs.map e.readSig

/-- The subscribers of a node, in insertion order (R130). -/
def subsOf (e : Engine) (n : Nat) : List Callback :=
  match e.nodes[n]? with
  | some d => d.subs
  | none => []

/-- R144: LogAppend(n), for a tagged node: (seq, tag, new value, group value read at that instant). -/
def logAppend (n : Nat) (e : Engine) : Engine :=
  match e.nodes[n]? with
  | none => e
  | some d =>
    match d.tag with
    | none => e
    | some t => { e with log := e.log ++ [⟨e.seq, t, d.value, d.group.map e.readNodes⟩], seq := e.seq + 1 }

/-- The part of Write(n, b) before the drain (R133): nothing if the value is already held (R135); else the new value, the log
entry, and the node's subscribers at the queue's tail, with the value captured now (R143). -/
def post (n : Nat) (b : Bool) (e : Engine) : Except Stop Engine :=
  match e.nodes[n]? with
  | none => .error (.refused (.noSuchNode n))
  | some d =>
    if d.value = b then .ok e
    else
      let logged := logAppend n { e with nodes := e.nodes.set n { d with value := b } }
      .ok { logged with queue := logged.queue ++ d.subs.map fun cb => ⟨cb, b, n⟩ }

/-- Whether a listener's invocation sets stop_req (R263): `earlier` is how often it was invoked before. -/
def listenerStops (act : ListenerAct) (earlier : Nat) : Bool :=
  match act with
  | .stop => true
  | .stopAt k => earlier == k
  | .record | .writesNode _ _ | .usesConsole => false

/-- R139, R263: a listener records what it is invoked with and may set stop_req; one that writes or uses the console is refused. -/
def listen (id : Nat) (act : ListenerAct) (a : Bool) (e : Engine) : Except Stop Engine :=
  match act with
  | .writesNode _ _ | .usesConsole => .error (.refused .listenerActs)
  | .record | .stop | .stopAt _ =>
    let earlier := (e.seen.filter fun r => r.1 == id).length
    .ok { e with seen := e.seen ++ [(id, a)], stopReq := e.stopReq || listenerStops act earlier }

/-- R139: what invoking a callback with argument `a` does: its reads, and at most one Write for the caller to perform. -/
def act (v : Env) (cb : Callback) (a : Bool) (e : Engine) : Except Stop (Engine × Option (Nat × Bool)) :=
  match cb with
  | .not out => .ok (e, some (out, !a))
  | .op2L f out other => .ok (e, some (out, f.apply a (e.read other)))
  | .op2R f out other => .ok (e, some (out, f.apply (e.read other) a))
  | .op2K f out k => .ok (e, some (out, f.apply a k))
  | .sr q r s =>
    match e.readSig s, e.readSig r with
    | true, false => .ok (e, some (q, true))
    | false, true => .ok (e, some (q, false))
    | false, false => .ok (e, none)
    | true, true => .ok ({ e with draws := e.draws + 1 }, some (q, v.draw e.draws))
  | .listener id la =>
    match listen id la a e with
    | .ok e' => .ok (e', none)
    | .error s => .error s

/-- R143: the argument of a queued entry, captured at the write or read now. -/
def argOf (v : Env) (p : Pending) (e : Engine) : Bool :=
  match v.notify with
  | .captured => p.arg
  | .current => e.read p.src

/-- Invoke one popped entry inside a drain: its Write only enqueues (R134). -/
def deliver (v : Env) (p : Pending) (e : Engine) : Except Stop Engine :=
  match act v p.cb (argOf v p e) e with
  | .error s => .error s
  | .ok (e', none) => .ok e'
  | .ok (e', some (n, b)) => post n b e'

/-- Invoke a list of entries in order, each one's Writes only enqueuing: one depth of the breadth-first order (R138). -/
def deliverAll (v : Env) : List Pending → Engine → Except Stop Engine
  | [], e => .ok e
  | p :: rest, e =>
    match deliver v p e with
    | .ok e' => deliverAll v rest e'
    | .error s => .error s

/-- R133's loop under fuel: pop and invoke until the queue is empty. Exhausted fuel is "did not settle" (R145). -/
def drain (v : Env) : Nat → Engine → Except Stop Engine
  | 0, e => if e.queue.isEmpty then .ok e else .error (.fault .didNotSettle)
  | n + 1, e =>
    match e.queue with
    | [] => .ok e
    | p :: rest =>
      match deliver v p { e with queue := rest } with
      | .ok e' => drain v n e'
      | .error s => .error s

/-- R134: become the drain owner if no drain is active and the queue is not empty. -/
def settle (v : Env) (e : Engine) : Except Stop Engine :=
  if e.draining || e.queue.isEmpty then .ok e
  else
    match drain v v.fuel { e with draining := true } with
    | .ok e' => .ok { e' with draining := false }
    | .error s => .error s

/-- R133: Write(n, b). A write of the value already held returns at once (R135); otherwise the post, then the drain. -/
def write (v : Env) (n : Nat) (b : Bool) (e : Engine) : Except Stop Engine :=
  match e.nodes[n]? with
  | none => .error (.refused (.noSuchNode n))
  | some d =>
    if d.value = b then .ok e
    else
      match post n b e with
      | .ok e' => settle v e'
      | .error s => .error s

/-- R131: a term that writes a constant is refused. -/
def writeSig (v : Env) (x : Sig) (b : Bool) (e : Engine) : Except Stop Engine :=
  match x with
  | .const _ => .error (.refused .writesConstant)
  | .node n => write v n b e

/-- A direct invocation, not through the queue (R136, D18): its Write drains as any Write does. -/
def invoke (v : Env) (cb : Callback) (a : Bool) (e : Engine) : Except Stop Engine :=
  match act v cb a e with
  | .error s => .error s
  | .ok (e', none) => .ok e'
  | .ok (e', some (n, b)) => write v n b e'

/-- The registration part of Subscribe: `cb` at the end of the node's subscribers (R136). -/
def register (n : Nat) (cb : Callback) (e : Engine) : Engine :=
  match e.nodes[n]? with
  | none => e
  | some d => { e with nodes := e.nodes.set n { d with subs := d.subs ++ [cb] } }

/-- R136: Subscribe(n, cb) registers and at once invokes with the current value. -/
def subscribe (v : Env) (n : Nat) (cb : Callback) (e : Engine) : Except Stop Engine :=
  match e.nodes[n]? with
  | none => .error (.refused (.noSuchNode n))
  | some d => invoke v cb d.value (register n cb e)

/-- R131, D20: subscribing to a constant invokes the callback once and registers nothing. -/
def subscribeSig (v : Env) (x : Sig) (cb : Callback) (e : Engine) : Except Stop Engine :=
  match x with
  | .const b => invoke v cb b e
  | .node n => subscribe v n cb e

/-- R137: Unsubscribe(n, cb) removes the earliest registration, if any; entries already queued stay. DESIGN CHOICE (log 30): at a handle
of no node it changes nothing. -/
def unsubscribe (n : Nat) (cb : Callback) (e : Engine) : Engine :=
  match e.nodes[n]? with
  | none => e
  | some d => { e with nodes := e.nodes.set n { d with subs := d.subs.erase cb } }

/-- R144: tag a node for logging, optionally in a named group. DESIGN CHOICE (log 34): the spec names no tagging operation; this one replaces
both the tag and the group the node had, so that tagging with no group clears an earlier group, and it logs nothing. DESIGN CHOICE (log 30):
tagging a handle that no node of the arena has (R32) changes nothing. -/
def tagNode (n : Nat) (tag : String) (group : Option (List Nat)) (e : Engine) : Engine :=
  match e.nodes[n]? with
  | none => e
  | some d => { e with nodes := e.nodes.set n { d with tag := some tag, group := group } }

/-- R130: a new node at the end of the arena, with its handle. -/
def newNode (init : Bool) (e : Engine) : Nat × Engine :=
  (e.nodes.length, { e with nodes := e.nodes ++ [{ value := init }] })

/-- Write the bits of a bus one node at a time, index 0 first (log 18). -/
def writeBits (v : Env) : List Sig → List Bool → Engine → Except Stop Engine
  | x :: xs, b :: bs, e =>
    match writeSig v x b e with
    | .ok e' => writeBits v xs bs e'
    | .error s => .error s
  | _, _, e => .ok e

/-- R70: a host write of an integer to a bus. An integer that does not fit writes no node. DESIGN CHOICE (log 18): the spec does not say
whether this host error or the refusal of R131 comes first on a bus that holds a constant; the width is checked first. -/
def writeBus (v : Env) (bus : List Sig) (value : Int) (e : Engine) : Except Stop Engine :=
  match toBus value bus.length with
  | none => .error (.fault .bitWidthOverflow)
  | some bits => writeBits v bus bits e

end Engine

end Sys2Proof.Machine
end

