-- ==== Sys2Proof/Machine/Driver.lean ====
section
/-! DEFINITION. Reset and the clock driver (spec/44_clock_driver.md, spec/70_reset_and_hazards.md R430 to R433). -/

namespace Sys2Proof.Machine

/-- R433: a reset is well defined only while CR holds HLT or an undefined opcode. -/
def resetAdmitted (s : State) : Bool :=
  match decodePair s.cr s.ar with
  | .error _ => true
  | .ok (.hlt _) => true
  | .ok _ => false

/-- The lines a reset forces: PC through its counter bits' clear, the ring through its own (R233, R235, R430). -/
def forceReset (s : State) : State := ((s.setPc 0x00#8).setRing .p3).setResetLine true

/-- Assert the reset line (R265), under P_RESET_MIDRUN (R433). -/
def assertReset (s : State) : Result :=
  if resetAdmitted s then .next (forceReset s)
  else
    match s.cfg.resetMidrun with
    | .refuse => .refused .resetMidInstruction
    | .clean => .next (forceReset s)

/-- Release the reset line (R265). -/
def releaseReset (s : State) : Result := .next (s.setResetLine false)

/-- R265, R430: `reset()`. No clock edge; only PC and ring change. -/
def reset (s : State) : Result := andThen (assertReset s) releaseReset

/-- The clock node's value (R260). -/
def State.clock (s : State) : Bool := s.engine.read clockNode

/-- R260: one toggle, Write(clock, not Read(clock)), which settles before it returns. -/
def toggleClock (s : State) : Result :=
  match Engine.write (Env.ofConfig s.cfg) clockNode (!s.clock) s.engine with
  | .ok e => .next (s.setEngine e)
  | .error x => x.toResult

/-- R261: one phase is one clock period, two toggles (log 10). DESIGN CHOICE (log 10): the spec is silent on a clock node that already
stands true when a phase starts, which a host Write can leave; the phase toggles twice all the same, its falling edge first. -/
def clockPhase (s : State) : Result := andThen (toggleClock s) fun s1 => andThen (phaseStep s1) toggleClock

/-- R263: each run call clears stop_req when it starts. -/
def clearStop (s : State) : State := s.setEngine { s.engine with stopReq := false }

/-- The loop of R266: up to n phases, ended early by stop_req after a phase (R262). -/
def phasesLoop : Nat → State → Result
  | 0, s => .next s
  | n + 1, s => andThen (clockPhase s) fun t => if t.stopReq then .next t else phasesLoop n t

/-- R266: `run_phases(n)`. No reset, no test for HLT. -/
def runPhases (n : Nat) (s : State) : Result := phasesLoop n (clearStop s)

/-- The loop of R267, under fuel: one phase, then the test of `pred` or stop_req. -/
def untilLoop (pred : PhaseState → Bool) : Nat → State → Result
  | 0, _ => .fault .didNotReturn
  | n + 1, s => andThen (clockPhase s) fun t => if pred t.phaseState || t.stopReq then .next t else untilLoop pred n t

/-- R267: `run_until(pred)`, where pred reads the phase-level state alone (log 29); `fuel` bounds the phases the model tries (log 11). -/
def runUntil (fuel : Nat) (pred : PhaseState → Bool) (s : State) : Result := untilLoop pred fuel (clearStop s)

/-- R268: the HLT's P2 has just completed. -/
def halted (s : PhaseState) : Bool := s.cr == 0xFF#8 && s.ring == .p2

/-- R268: `run()`: reset, then drive until halted. -/
def run (fuel : Nat) (s : State) : Result := andThen (reset s) (runUntil fuel halted)

end Sys2Proof.Machine
end

