-- ==== Sys2Proof/Machine/Gates.lean ====
section
/-! DEFINITION. The combinational library as networks of the engine's gates (spec/41_combinational.md). A construction extends a
session's engine and gives the output signals. Composite gates are built left to right as written (D38; log 16). -/

namespace Sys2Proof.Machine

/-- A construction in a session: it extends the engine, or stops. -/
abbrev Build := StateT Engine (Except Stop)

/-- An engine operation as a construction step. -/
def Build.perform (f : Engine → Except Stop Engine) : Build Unit := fun e =>
  match f e with
  | .ok e' => .ok ((), e')
  | .error s => .error s

/-- A construction that is refused. -/
def Build.refuse {α : Type} (r : Refusal) : Build α := fun _ => .error (.refused r)

/-- A construction that goes on only if a check holds. -/
def Build.require (ok : Bool) (r : Refusal) : Build Unit := if ok then pure () else Build.refuse r

/-- R130: a fresh node. -/
def mkNode (init : Bool := false) : Build Nat := fun e => .ok (Engine.newNode init e)

/-- A bus of `w` fresh input nodes, all false, index 0 first (log 35). -/
def mkInputs : Nat → Build (List Sig)
  | 0 => pure []
  | w + 1 => do
    let n ← mkNode
    let rest ← mkInputs w
    pure (.node n :: rest)

/-- R170: NOT. The inverse of a constant is the opposite constant (D20). -/
def mkNot (v : Env) : Sig → Build Sig
  | .const b => pure (.const !b)
  | .node n => do
    let out ← mkNode
    Build.perform (Engine.subscribe v n (.not out))
    pure (.node out)

/-- R140 to R142: a two-input gate; two constants fold, one constant is captured in the callback. -/
def mkOp2 (v : Env) (f : GateFn) : Sig → Sig → Build Sig
  | .const a, .const b => pure (.const (f.apply a b))
  | .node n, .const k => do
    let out ← mkNode
    Build.perform (Engine.subscribe v n (.op2K f out k))
    pure (.node out)
  | .const k, .node n => do
    let out ← mkNode
    Build.perform (Engine.subscribe v n (.op2K f out k))
    pure (.node out)
  | .node x, .node y => do
    let out ← mkNode
    Build.perform (Engine.subscribe v x (.op2L f out y))
    Build.perform (Engine.subscribe v y (.op2R f out x))
    pure (.node out)

/-- R171. -/
def mkAnd (v : Env) (x y : Sig) : Build Sig := mkOp2 v .and x y

/-- R171. -/
def mkOr (v : Env) (x y : Sig) : Build Sig := mkOp2 v .or x y

/-- R172: NAND(a, b) = NOT(AND(a, b)). -/
def mkNand (v : Env) (x y : Sig) : Build Sig := do mkNot v (← mkAnd v x y)

/-- R172: NOR(a, b) = NOT(OR(a, b)). -/
def mkNor (v : Env) (x y : Sig) : Build Sig := do mkNot v (← mkOr v x y)

/-- R172: XOR(a, b) = AND(OR(a, b), NAND(a, b)), the OR built first, then the NAND, then the AND. -/
def mkXor (v : Env) (x y : Sig) : Build Sig := do
  let o ← mkOr v x y
  let n ← mkNand v x y
  mkAnd v o n

/-- The left-to-right reduction of R173, from an accumulated signal. -/
def mkReduceFrom (v : Env) (f : GateFn) : Sig → List Sig → Build Sig
  | acc, [] => pure acc
  | acc, x :: rest => do mkReduceFrom v f (← mkOp2 v f acc x) rest

/-- R173: multi-input AND and OR; one operand is returned itself, none is refused (D22). -/
def mkMulti (v : Env) (f : GateFn) (xs : List Sig) : Build Sig :=
  if gateArityOk xs then
    match xs with
    | [] => Build.refuse .emptyGate
    | x :: rest => mkReduceFrom v f x rest
  else Build.refuse .emptyGate

/-- R173: NAND(xs) = NOT(AND(xs)). -/
def mkMultiNand (v : Env) (xs : List Sig) : Build Sig := do mkNot v (← mkMulti v .and xs)

/-- R173: NOR(xs) = NOT(OR(xs)). -/
def mkMultiNor (v : Env) (xs : List Sig) : Build Sig := do mkNot v (← mkMulti v .or xs)

/-- R174: SEL(s, a, b) = OR(AND(a, NOT(s)), AND(b, s)): s = false selects a, s = true selects b (D21). -/
def mkSel (v : Env) (s a b : Sig) : Build Sig := do
  let ns ← mkNot v s
  let l ← mkAnd v a ns
  let r ← mkAnd v b s
  mkOr v l r

/-- The selectors of R174, one per bit. DESIGN CHOICE: R174 gives the selectors that share `s` no order, and they are built from bit 0 upward
(log 35); it speaks of one width W only, and buses of unequal width are refused (log 36). -/
def mkSelBits (v : Env) (s : Sig) : List Sig → List Sig → Build (List Sig)
  | [], [] => pure []
  | a :: as, b :: bs => do
    let o ← mkSel v s a b
    let rest ← mkSelBits v s as bs
    pure (o :: rest)
  | _, _ => Build.refuse .unequalWidths

/-- R174: one selector per bit of two buses of width W ≥ 1 (R9), sharing the select line. -/
def mkBusSel (v : Env) (s : Sig) (as bs : List Sig) : Build (List Sig) := do
  Build.require (widthOk as.length) .zeroWidth
  mkSelBits v s as bs

/-- R176: the literals of line `i`, in index order: sel[k] where bit k of `i` is 1, else NOT(sel[k]), each NOT a fresh inverter (log 16). -/
def mkLiterals (v : Env) : List Sig → Nat → Build (List Sig)
  | [], _ => pure []
  | x :: xs, i => do
    let l ← if i % 2 == 1 then pure x else mkNot v x
    let rest ← mkLiterals v xs (i / 2)
    pure (l :: rest)

/-- R176: out_i = AND(data, m_i). -/
def mkDecoderLine (v : Env) (data : Sig) (sel : List Sig) (i : Nat) : Build Sig := do
  let m ← mkMulti v .and (← mkLiterals v sel i)
  mkAnd v data m

/-- The decoder lines of the given indices, in order. DESIGN CHOICE (log 35): R176 orders the bits of a line, not the lines. -/
def mkDecoderLines (v : Env) (data : Sig) (sel : List Sig) : List Nat → Build (List Sig)
  | [] => pure []
  | i :: is => do
    let o ← mkDecoderLine v data sel i
    let rest ← mkDecoderLines v data sel is
    pure (o :: rest)

/-- R176: the one-hot decoder on an N-bit select bus, N ≥ 1 (R9): 2^N lines; `data` defaults to the constant TRUE (D23). DESIGN CHOICE
(log 35): line 0 is built first, then the next, which fixes the order of the select bits' subscribers. -/
def mkDecoder (v : Env) (sel : List Sig) (data : Sig := .const true) : Build (List Sig) := do
  Build.require (widthOk sel.length) .zeroWidth
  mkDecoderLines v data sel (List.range (2 ^ sel.length))

/-- One decoder for each bit of the data, in index order (log 33). -/
def mkDecoderBits (v : Env) (sel : List Sig) : List Sig → Build (List (List Sig))
  | [] => pure []
  | d :: ds => do
    let lines ← mkDecoder v sel d
    let rest ← mkDecoderBits v sel ds
    pure (lines :: rest)

/-- R176: "if data width ≠ 1 the decoder is replicated per bit" (log 33): the 2^N lines of each data bit. -/
def mkBusDecoder (v : Env) (sel data : List Sig) : Build (List (List Sig)) := do
  Build.require (widthOk data.length) .zeroWidth
  mkDecoderBits v sel data

/-- AND(x_i, y_i) for two lists of one length, in index order. DESIGN CHOICE (log 36): lists of unequal length, a selector given other than
2^N inputs (R175), are refused. -/
def mkPairwiseAnd (v : Env) : List Sig → List Sig → Build (List Sig)
  | [], [] => pure []
  | x :: xs, y :: ys => do
    let o ← mkAnd v x y
    let rest ← mkPairwiseAnd v xs ys
    pure (o :: rest)
  | _, _ => Build.refuse .unequalWidths

/-- R175: the 2^N-way selector: OR over i, in index order, of AND(in_i, d_i). DESIGN CHOICE: every AND is built before the first OR (log 35);
other than 2^N inputs are refused (log 36). -/
def mkMux (v : Env) (sel inputs : List Sig) : Build Sig := do
  let d ← mkDecoder v sel
  let terms ← mkPairwiseAnd v inputs d
  mkMulti v .or terms

/-- One multi-way selector for each of `w` bits, on the first bit of every input, then the next (log 33). -/
def mkMuxBits (v : Env) (sel : List Sig) : Nat → List (List Sig) → Build (List Sig)
  | 0, _ => pure []
  | w + 1, inputs => do
    let o ← mkMux v sel (inputs.map fun bus => bus.headD (.const false))
    let rest ← mkMuxBits v sel w (inputs.map List.tail)
    pure (o :: rest)

/-- R175: the multi-way selector "replicated per bit for W-bit inputs" (log 33): one per bit of the 2^N input buses, W ≥ 1 (R9). DESIGN
CHOICE (log 36): an input bus of another width, or other than 2^N inputs, is refused. -/
def mkBusMux (v : Env) (sel : List Sig) (w : Nat) (inputs : List (List Sig)) : Build (List Sig) := do
  Build.require (widthOk w) .zeroWidth
  Build.require (busWidthsOk w inputs) .unequalWidths
  mkMuxBits v sel w inputs

/-- R177: (sum, carry) = (XOR(a, b), AND(a, b)). -/
def mkHalfAdder (v : Env) (a b : Sig) : Build (Sig × Sig) := do
  let sum ← mkXor v a b
  let carry ← mkAnd v a b
  pure (sum, carry)

/-- R178: two half adders and an OR. -/
def mkFullAdder (v : Env) (a b cin : Sig) : Build (Sig × Sig) := do
  let h1 ← mkHalfAdder v a b
  let h2 ← mkHalfAdder v h1.1 cin
  let cout ← mkOr v h1.2 h2.2
  pure (h2.1, cout)

/-- R179: the ripple of full adders from bit 0 upward. -/
def mkRippleAdd (v : Env) : List Sig → List Sig → Sig → Build (List Sig × Sig)
  | [], [], c => pure ([], c)
  | x :: xs, y :: ys, c => do
    let fa ← mkFullAdder v x y c
    let rest ← mkRippleAdd v xs ys fa.2
    pure (fa.1 :: rest.1, rest.2)
  | _, _, _ => Build.refuse .unequalWidths

/-- R179: the MultiAdder, of width N ≥ 1 (R9). Buses of unequal width are refused at construction. -/
def mkMultiAdder (v : Env) (xs ys : List Sig) (c : Sig) : Build (List Sig × Sig) := do
  Build.require (adderWidthsOk xs ys) .unequalWidths
  Build.require (widthOk xs.length) .zeroWidth
  mkRippleAdd v xs ys c

/-- The XORs of R180, one per bit. DESIGN CHOICE (log 35): R180 gives the XORs that share `invert` no order, and they are built from bit 0
upward. -/
def mkInvertBits (v : Env) (invert : Sig) : List Sig → Build (List Sig)
  | [] => pure []
  | x :: xs => do
    let o ← mkXor v x invert
    let rest ← mkInvertBits v invert xs
    pure (o :: rest)

/-- R180: out[i] = XOR(in[i], invert), for a bus of width N ≥ 1 (R9). -/
def mkOnesComp (v : Env) (invert : Sig) (xs : List Sig) : Build (List Sig) := do
  Build.require (widthOk xs.length) .zeroWidth
  mkInvertBits v invert xs

/-- R181: the add/subtract unit: (sum, carry-out, overflow). -/
def mkAddSub (v : Env) (xs ys : List Sig) (sub : Sig) : Build (List Sig × Sig × Sig) := do
  let y' ← mkOnesComp v sub ys
  let s ← mkMultiAdder v xs y' sub
  let overflow ← mkXor v sub s.2
  pure (s.1, s.2, overflow)

end Sys2Proof.Machine
end

