-- ==== Sys2Proof/Machine/Latches.lean ====
section
/-! DEFINITION. The sequential library as networks (spec/42_sequential.md). A latch is built onto an output node made before it, so
that a feedback circuit can name its own output (log 16). -/

namespace Sys2Proof.Machine

/-- R200: the set-reset latch onto output node `q`: one callback, subscribed to r and then to s (D24). -/
def mkSrInto (v : Env) (q : Nat) (r s : Sig) : Build Unit := do
  Build.perform (Engine.subscribeSig v r (.sr q r s))
  Build.perform (Engine.subscribeSig v s (.sr q r s))

/-- R200: a set-reset latch with its initial state. -/
def mkSr (v : Env) (r s : Sig) (init : Bool := false) : Build Sig := do
  let q ← mkNode init
  mkSrInto v q r s
  pure (.node q)

/-- R202: r = (clock AND NOT data) OR (clear AND NOT preset), s = (clock AND data) OR (preset AND NOT clear). -/
def mkLevelInto (v : Env) (q : Nat) (clock data clear preset : Sig) : Build Unit := do
  let nd ← mkNot v data
  let r1 ← mkAnd v clock nd
  let np ← mkNot v preset
  let r2 ← mkAnd v clear np
  let r ← mkOr v r1 r2
  let s1 ← mkAnd v clock data
  let nc ← mkNot v clear
  let s2 ← mkAnd v preset nc
  let s ← mkOr v s1 s2
  mkSrInto v q r s

/-- R202: the level-triggered D latch; `clear` and `preset` are the constant FALSE by default. -/
def mkLevel (v : Env) (clock data : Sig) (clear preset : Sig := .const false) (init : Bool := false) : Build Sig := do
  let q ← mkNode init
  mkLevelInto v q clock data clear preset
  pure (.node q)

/-- R204: master on NOT(clock), slave on clock, the master built first; clear and preset go to both. DESIGN CHOICE (log 31): R204 gives the
master no initial state, and it starts at the edge latch's own. -/
def mkEdgeInto (v : Env) (q : Nat) (clock data clear preset : Sig) (init : Bool := false) : Build Unit := do
  let nclock ← mkNot v clock
  let m ← mkNode init
  mkLevelInto v m nclock data clear preset
  mkLevelInto v q clock (.node m) clear preset

/-- R204: the edge-triggered D latch. -/
def mkEdge (v : Env) (clock data : Sig) (clear preset : Sig := .const false) (init : Bool := false) : Build Sig := do
  let q ← mkNode init
  mkEdgeInto v q clock data clear preset init
  pure (.node q)

/-- The level latches of R205, one per bit. DESIGN CHOICE: from bit 0 upward (log 35); a preset bus of another width is refused (log 36). -/
def mkLevelBits (v : Env) (clock clear : Sig) : List Sig → List Sig → Build (List Sig)
  | [], [] => pure []
  | d :: ds, p :: ps => do
    let q ← mkLevel v clock d clear p
    let rest ← mkLevelBits v clock clear ds ps
    pure (q :: rest)
  | _, _ => Build.refuse .unequalWidths

/-- R205: one level latch per bit of a bus of width W ≥ 1 (R9), a shared clock and clear, a preset per bit. -/
def mkLevelBus (v : Env) (clock clear : Sig) (data presets : List Sig) : Build (List Sig) := do
  Build.require (widthOk data.length) .zeroWidth
  mkLevelBits v clock clear data presets

/-- The edge latches of R205, one per bit. DESIGN CHOICE: from bit 0 upward (log 35); a preset bus of another width is refused (log 36). -/
def mkEdgeBits (v : Env) (clock clear : Sig) : List Sig → List Sig → Build (List Sig)
  | [], [] => pure []
  | d :: ds, p :: ps => do
    let q ← mkEdge v clock d clear p
    let rest ← mkEdgeBits v clock clear ds ps
    pure (q :: rest)
  | _, _ => Build.refuse .unequalWidths

/-- R205: one edge latch per bit of a bus of width W ≥ 1 (R9), a shared clock and clear, a preset per bit. -/
def mkEdgeBus (v : Env) (clock clear : Sig) (data presets : List Sig) : Build (List Sig) := do
  Build.require (widthOk data.length) .zeroWidth
  mkEdgeBits v clock clear data presets

end Sys2Proof.Machine
end

