-- ==== Sys2Proof/Machine/Counters.lean ====
section
/-! DEFINITION. The counters as networks (spec/43_counters.md). -/

namespace Sys2Proof.Machine

/-- R230: the toggle, an edge latch whose data is the inverter of its own output. -/
def mkToggle (v : Env) (clock clear preset : Sig) : Build Sig := do
  let q ← mkNode
  let nq ← mkNot v (.node q)
  mkEdgeInto v q clock nq clear preset
  pure (.node q)

/-- Toggles from bit i upward: `prev` is the clock input of the next one, `cps` its clear and preset; bit i+1 is clocked by the
complement of bit i (R231, R233), an inverter of its own beside the toggle's (log 35). -/
def mkToggleChain (v : Env) : Sig → List (Sig × Sig) → Build (List Sig)
  | _, [] => pure []
  | clock, (clear, preset) :: rest => do
    let q ← mkToggle v clock clear preset
    match rest with
    | [] => pure [q]
    | _ :: _ => do
      let nq ← mkNot v q
      let qs ← mkToggleChain v nq rest
      pure (q :: qs)

/-- R231: bit 0's clock input under P_RIPPLE_EDGE, which the environment holds (R10). -/
def mkCountClock (v : Env) (clock : Sig) : Build Sig :=
  match v.edge with
  | .rising => pure clock
  | .falling => mkNot v clock

/-- R231: the ripple counter of width `w` ≥ 1 (R9). -/
def mkRipple (v : Env) (w : Nat) (clock clear : Sig) : Build (List Sig) := do
  Build.require (widthOk w) .zeroWidth
  let c0 ← mkCountClock v clock
  mkToggleChain v c0 (List.replicate w (clear, .const false))

/-- R233: clear_i = OR(AND(set, NOT(tgt[i])), reset) and preset_i = AND(set, tgt[i]), per bit, from bit 0 upward (log 35). -/
def mkForces (v : Env) (set reset : Sig) : List Sig → Build (List (Sig × Sig))
  | [] => pure []
  | t :: ts => do
    let nt ← mkNot v t
    let c1 ← mkAnd v set nt
    let clear ← mkOr v c1 reset
    let preset ← mkAnd v set t
    let rest ← mkForces v set reset ts
    pure ((clear, preset) :: rest)

/-- R233: the settable address counter, of the target bus's width N ≥ 1 (R9); the forcing gates are built before the toggles (log 35). -/
def mkSettable (v : Env) (clock set reset : Sig) (tgt : List Sig) : Build (List Sig) := do
  Build.require (widthOk tgt.length) .zeroWidth
  let forces ← mkForces v set reset tgt
  let c0 ← mkCountClock v clock
  mkToggleChain v c0 forces

/-- The latches of R236 onto the output nodes `outs`: `data` is the output before the first of them; the last has `clear` as its
preset, the others as their clear. They are built from L_0 upward (log 35). -/
def mkRingLatches (v : Env) (nclock clear : Sig) : Sig → List Nat → Build Unit
  | _, [] => pure ()
  | data, [q] => mkEdgeInto v q nclock data (.const false) clear
  | data, q :: q' :: rest => do
    mkEdgeInto v q nclock data clear (.const false)
    mkRingLatches v nclock clear (.node q) (q' :: rest)

/-- `w` fresh nodes. -/
def mkNodes : Nat → Build (List Nat)
  | 0 => pure []
  | w + 1 => do
    let n ← mkNode
    let rest ← mkNodes w
    pure (n :: rest)

/-- R236: the ring counter of `w` ≥ 1 outputs (R9), all false at first; each latch is clocked by NOT(clock), latch i takes out[i-1]. -/
def mkRing (v : Env) (w : Nat) (clock clear : Sig) : Build (List Sig) := do
  Build.require (widthOk w) .zeroWidth
  let outs ← mkNodes w
  let nclock ← mkNot v clock
  match outs.getLast? with
  | none => Build.refuse .zeroWidth
  | some last => do
    mkRingLatches v nclock clear (.node last) outs
    pure (outs.map .node)

end Sys2Proof.Machine
end

