-- ==== Sys2Proof/Machine/MemoryArray.lean ====
section
/-! DEFINITION. The addressable memory and its two drivers as networks (spec/20_memory.md R60 to R66). -/

namespace Sys2Proof.Machine

/-- R61: the cells of a one-bit array: a level latch per decoder line, open while `dec_a AND write`; address 0 first (log 35). -/
def mkCells (v : Env) (data write : Sig) : List Sig → Build (List Sig)
  | [] => pure []
  | d :: ds => do
    let open_ ← mkAnd v d write
    let q ← mkLevel v open_ data
    let rest ← mkCells v data write ds
    pure (q :: rest)

/-- One bit-array's parts: its cells (address 0 first) and its read port. -/
structure BitArray where
  cells : List Sig
  out : Sig
  deriving DecidableEq, Repr

/-- R60 to R62: a one-bit array on an address bus: the decoder, the cells, and the multi-way selector over them. -/
def mkBitArray (v : Env) (addr : List Sig) (data write : Sig) : Build BitArray := do
  let dec ← mkDecoder v addr
  let cells ← mkCells v data write dec
  let out ← mkMux v addr cells
  pure ⟨cells, out⟩

/-- The bit-arrays of R60, one per data bit, bit 0 first (log 35). -/
def mkBitArrays (v : Env) (addr : List Sig) (write : Sig) : List Sig → Build (List BitArray)
  | [] => pure []
  | d :: ds => do
    let b ← mkBitArray v addr d write
    let rest ← mkBitArrays v addr write ds
    pure (b :: rest)

/-- R60: an A × W memory, A ≥ 1 and W ≥ 1 (R9): one bit-array per data bit, sharing address and write. -/
def mkArray (v : Env) (addr : List Sig) (write : Sig) (data : List Sig) : Build (List BitArray) := do
  Build.require (widthOk data.length) .zeroWidth
  mkBitArrays v addr write data

/-- A driver triple (R66). -/
structure Triple where
  addr : List Sig
  data : List Sig
  write : Sig
  deriving DecidableEq, Repr

/-- R66: the signals that reach the array: a bit selector per bit of the two triples, with `takeover` as the select line; address, data and
write in the order R66 lists them (log 35). -/
def mkFrontEnd (v : Env) (takeover : Sig) (pri ov : Triple) : Build Triple := do
  let addr ← mkBusSel v takeover pri.addr ov.addr
  let data ← mkBusSel v takeover pri.data ov.data
  let write ← mkSel v takeover pri.write ov.write
  pure ⟨addr, data, write⟩

/-- R60, R66: the array behind its two drivers. -/
def mkConsoleMemory (v : Env) (takeover : Sig) (pri ov : Triple) : Build (List BitArray) := do
  let eff ← mkFrontEnd v takeover pri ov
  mkArray v eff.addr eff.write eff.data

/-- The byte row `a` holds: the value of cell (a, j) at bit j (R60); 0 at a row that the array has not (log 36). -/
def rowValue (e : Engine) (arrays : List BitArray) (a : Nat) : Nat :=
  busValue (arrays.map fun b => e.readSig (b.cells.getD a (.const false)))

/-- The array's output bus as an integer (R62). -/
def outValue (e : Engine) (arrays : List BitArray) : Nat := busValue (e.readBus (arrays.map BitArray.out))

end Sys2Proof.Machine
end

