-- ==== Sys2Proof/Machine/Session.lean ====
section
/-! DEFINITION. A host session: the host's calls one at a time (spec/44_clock_driver.md R264), ended by the first error
(spec/60_exceptions.md R402). -/

namespace Sys2Proof.Machine

/-- A host call: the entry points (R264), the console protocols (R68, R69), the lines those protocols drive one at a time (R66,
R265), and the host's operations on the engine's nodes (R133, R136, R137, R144, R148). -/
inductive HostCall where
  | reset
  | run (fuel : Nat)
  | runPhases (n : Nat)
  | runUntil (fuel : Nat) (pred : PhaseState → Bool)
  | consoleLoad (addr : Int) (bytes : List Int)
  | consoleRead (addr : Int)
  | takeover (b : Bool)
  | ovAddr (v : Int)
  | ovData (v : Int)
  | ovWrite (b : Bool)
  | assertReset
  | releaseReset
  | writeNode (n : Nat) (b : Bool)
  | writeBus (bus : List Sig) (value : Int)
  | subscribe (n : Nat) (cb : Callback)
  | unsubscribe (n : Nat) (cb : Callback)
  | tagNode (n : Nat) (tag : String) (group : Option (List Nat))
  | newNode

/-- A driver outcome as a reply with no value. -/
def Reply.ofResult : Result → Reply (Option Byte)
  | .next s => .returned none s
  | .fault f => .stuck f
  | .refused r => .refused r

/-- An engine outcome as a reply with no value; a width overflow is the host error (R402). -/
def Reply.ofEngine (s : State) : Except Stop Engine → Reply (Option Byte)
  | .ok e => .returned none (s.setEngine e)
  | .error (.fault .bitWidthOverflow) => .hostError s
  | .error (.fault f) => .stuck f
  | .error (.refused r) => .refused r

/-- R70: an integer driven onto one of the console's 8-bit buses; one that does not fit drives nothing. -/
def driveBus (v : Int) (drive : Byte → State → State) (s : State) : Reply (Option Byte) :=
  match toByteBus v with
  | some b => .returned none (drive b s)
  | none => .hostError s

/-- One host call. A console read returns its byte; the other calls return no value. -/
def hostCall (call : HostCall) (s : State) : Reply (Option Byte) :=
  match call with
  | .reset => .ofResult (Machine.reset s)
  | .run fuel => .ofResult (Machine.run fuel s)
  | .runPhases n => .ofResult (Machine.runPhases n s)
  | .runUntil fuel pred => .ofResult (Machine.runUntil fuel pred s)
  | .consoleLoad a bytes =>
    match Machine.consoleLoad a bytes s with
    | .returned _ t => .returned none t
    | .hostError t => .hostError t
    | .stuck f => .stuck f
    | .refused r => .refused r
  | .consoleRead a =>
    match Machine.consoleRead a s with
    | .returned v t => .returned (some v) t
    | .hostError t => .hostError t
    | .stuck f => .stuck f
    | .refused r => .refused r
  | .takeover b => .returned none (driveTakeover b s)
  | .ovAddr v => driveBus v driveAddr s
  | .ovData v => driveBus v driveData s
  | .ovWrite b => .returned none (driveWrite b s)
  | .assertReset => .ofResult (Machine.assertReset s)
  | .releaseReset => .ofResult (Machine.releaseReset s)
  | .writeNode n b => .ofEngine s (Engine.write (Env.ofConfig s.cfg) n b s.engine)
  | .writeBus bus value => .ofEngine s (Engine.writeBus (Env.ofConfig s.cfg) bus value s.engine)
  | .subscribe n cb => .ofEngine s (Engine.subscribe (Env.ofConfig s.cfg) n cb s.engine)
  | .unsubscribe n cb => .returned none (s.setEngine (Engine.unsubscribe n cb s.engine))
  | .tagNode n tag group => .returned none (s.setEngine (Engine.tagNode n tag group s.engine))
  | .newNode => .returned none (s.setEngine (Engine.newNode false s.engine).2)

/-- R264: the calls in order; the bytes that the console reads returned, oldest first. The first error ends the session (R402). -/
def session : List HostCall → State → Reply (List Byte)
  | [], s => .returned [] s
  | call :: rest, s =>
    match hostCall call s with
    | .returned v t =>
      match session rest t with
      | .returned vs u => .returned (v.toList ++ vs) u
      | .hostError u => .hostError u
      | .stuck f => .stuck f
      | .refused r => .refused r
    | .hostError t => .hostError t
    | .stuck f => .stuck f
    | .refused r => .refused r

/-- Run a library construction in the machine's session (R33: one queue per session). -/
def construct {α : Type} (b : Env → Build α) (s : State) : Reply α :=
  match b (Env.ofConfig s.cfg) s.engine with
  | .ok (v, e) => .returned v (s.setEngine e)
  | .error (.fault f) => .stuck f
  | .error (.refused r) => .refused r

end Sys2Proof.Machine
end

