-- ==== Sys2Proof/Machine/Settled.lean ====
section
/-! DEFINITION. What the library components compute once the engine has settled: the functions that spec/41_combinational.md,
42_sequential.md and 43_counters.md state for their outputs. On lists that do not fit together, which no construction admits, their
values stand for nothing (log 36). The networks of Gates.lean to MemoryArray.lean realise them. -/

namespace Sys2Proof.Machine.Settled

/-- R172. -/
def nand (a b : Bool) : Bool := !(a && b)

/-- R172. -/
def nor (a b : Bool) : Bool := !(a || b)

/-- R172: (a OR b) AND (a NAND b). -/
def xor (a b : Bool) : Bool := (a || b) && nand a b

/-- R173: the left-to-right reduction; no operand has no value. -/
def multi (f : GateFn) : List Bool → Option Bool
  | [] => none
  | x :: rest => some (rest.foldl f.apply x)

/-- R174: s = false selects a, s = true selects b. -/
def sel (s a b : Bool) : Bool := (a && !s) || (b && s)

/-- R176: the lines of a decoder on an `n`-bit select bus of value `v`. -/
def decoder (data : Bool) (n v : Nat) : List Bool := (List.range (2 ^ n)).map fun i => data && i == v

/-- R175: the selected input. -/
def mux (bits : List Bool) (inputs : List Bool) : Bool := inputs.getD (busValue bits) false

/-- R176: the decoder replicated per bit of the data. -/
def busDecoder (data : List Bool) (n v : Nat) : List (List Bool) := data.map fun d => decoder d n v

/-- R175: the selected bus, one multi-way selector for each of `w` bits. -/
def busMux (bits : List Bool) (w : Nat) (inputs : List (List Bool)) : List Bool :=
  (List.range w).map fun j => mux bits (inputs.map fun bus => bus.getD j false)

/-- R177: (sum, carry). -/
def halfAdder (a b : Bool) : Bool × Bool := (xor a b, a && b)

/-- R178: (sum, carry-out). -/
def fullAdder (a b cin : Bool) : Bool × Bool :=
  let h1 := halfAdder a b
  let h2 := halfAdder h1.1 cin
  (h2.1, h1.2 || h2.2)

/-- R179: the ripple-carry sum of two buses of one width, with its carry-out. -/
def multiAdder : List Bool → List Bool → Bool → List Bool × Bool
  | x :: xs, y :: ys, c =>
    let fa := fullAdder x y c
    let rest := multiAdder xs ys fa.2
    (fa.1 :: rest.1, rest.2)
  | _, _, c => ([], c)

/-- R180. -/
def onesComp (invert : Bool) (xs : List Bool) : List Bool := xs.map fun x => xor x invert

/-- R181: (sum, carry-out, overflow). -/
def addSub (xs ys : List Bool) (sub : Bool) : List Bool × Bool × Bool :=
  let s := multiAdder xs (onesComp sub ys) sub
  (s.1, s.2, xor sub s.2)

/-- R200, R201: the set-reset latch's next output; `draw` is the free value of the both-true case. -/
def sr (q r s draw : Bool) : Bool :=
  match s, r with
  | true, false => true
  | false, true => false
  | false, false => q
  | true, true => draw

/-- R202: the latch's reset input. -/
def levelR (clock clear preset data : Bool) : Bool := (clock && !data) || (clear && !preset)

/-- R202: the latch's set input. -/
def levelS (clock clear preset data : Bool) : Bool := (clock && data) || (preset && !clear)

/-- R202: the level-triggered D latch's settled output. -/
def level (q clock clear preset data draw : Bool) : Bool :=
  sr q (levelR clock clear preset data) (levelS clock clear preset data) draw

/-- R231: the counter's value after a counted edge. -/
def count (n value : Nat) : Nat := (value + 1) % 2 ^ n

/-- R233: clear_i. -/
def forceClear (set reset tgt : Bool) : Bool := (set && !tgt) || reset

/-- R233: preset_i. -/
def forcePreset (set tgt : Bool) : Bool := set && tgt

/-- R235: "the active output shifts circularly to the next index": out'[0] = out[N-1], out'[i] = out[i-1]. -/
def ringShift (out : List Bool) : List Bool :=
  match out.getLast? with
  | none => []
  | some b => b :: out.dropLast

/-- R235: while `clear` is asserted, the highest-index output is true and all others false. -/
def ringClear (n : Nat) : List Bool := (List.range n).map fun i => i + 1 == n

/-- One thing that can happen to a ring counter (R235): a falling edge of the clock, or a pulse of `clear`. -/
inductive RingEvent where
  | fallingEdge
  | clearPulse
  deriving DecidableEq, Repr

/-- The settled outputs after an event. -/
def ringEvent (out : List Bool) : RingEvent → List Bool
  | .fallingEdge => ringShift out
  | .clearPulse => ringClear out.length

/-- The settled outputs after a sequence of events. -/
def ringRun (out : List Bool) (events : List RingEvent) : List Bool := events.foldl ringEvent out

/-- How many outputs are true. -/
def trueCount (out : List Bool) : Nat := out.countP fun b => b

/-- The outputs of the Computer's phase generator, index 0 first (R28). -/
def ringOutputs : Ring → List Bool
  | .none => [false, false, false]
  | .p1 => [true, false, false]
  | .p2 => [false, true, false]
  | .p3 => [false, false, true]

/-- R310, R311: the Computer's arithmetic unit from the library's parts: the MultiAdder on ACC and the inverted operand, giving
(sum bus, carry-out, zero flag as the NOR of all sum-bus bits). -/
def arithUnit (inverts cin : Bool) (acc m : Byte) : List Bool × Bool × Bool :=
  let s := multiAdder (bitsOf 8 acc.toNat) (onesComp inverts (bitsOf 8 m.toNat)) cin
  (s.1, s.2, !(s.1.foldl (fun a b => a || b) false))

end Sys2Proof.Machine.Settled
end

