-- ==== Sys2Proof/Safety.lean ====
section
/-! DEFINITION. What counts as a good state and a safe run, in the terms the statements use. -/

namespace Sys2Proof

/-- The instructions that write the flags (R26, R27). -/
def Instr.isArith : Instr → Bool
  | .add _ | .sub _ | .adc _ | .sbb _ => true
  | .lod _ | .sto _ => false
  | .jmp _ | .jiz _ | .jic _ | .jnz _ | .jnc _ | .hlt _ => false

end Sys2Proof

namespace Sys2Proof.Machine

/-- The invariants of spec/10_state.md R36 at a phase boundary after the first reset: the ring is exactly one of P1, P2, P3 and the
reset line is released; and the memory keeps its canonical form. -/
def State.good (s : State) : Bool := s.mem.wf && s.ring != .none && !s.resetLine

/-- No drain is in progress: the settled state of R149. -/
def Engine.idle (e : Engine) : Bool := e.queue.isEmpty && !e.draining

/-- What only the host changes (R29): the console's lines, the reset line, the engine and the configuration. -/
def State.sameHostSide (s t : State) : Prop :=
  t.takeover = s.takeover ∧ t.ovAddr = s.ovAddr ∧ t.ovData = s.ovData ∧ t.ovWrite = s.ovWrite ∧
    t.resetLine = s.resetLine ∧ t.engine = s.engine ∧ t.cfg = s.cfg

/-- Every byte reads the same. -/
def State.sameMemory (s t : State) : Prop := ∀ b : Byte, t.memRead b = s.memRead b

/-- Every byte reads the same but the one at `a`. -/
def State.sameMemoryBut (a : Byte) (s t : State) : Prop := ∀ b : Byte, b ≠ a → t.memRead b = s.memRead b

/-- The registers that only the cycle moves, and the ring, are unchanged. -/
def State.sameCycle (s t : State) : Prop := t.cr = s.cr ∧ t.ar = s.ar ∧ t.ring = s.ring

/-- The flags are unchanged. -/
def State.sameFlags (s t : State) : Prop := t.z = s.z ∧ t.c = s.c

/-- The 244 undefined opcodes, by the ranges of R104. -/
def undefinedOpcode (op : Byte) : Bool :=
  op.toNat ≤ 0x0F || (0x12 ≤ op.toNat && op.toNat ≤ 0x1F) || (0x24 ≤ op.toNat && op.toNat ≤ 0x2F) ||
    (0x35 ≤ op.toNat && op.toNat ≤ 0xFE)

/-- A run of whole instructions that meets no fault and no refusal. -/
def safeFor : Nat → State → Prop
  | 0, _ => True
  | n + 1, s => ∃ t, step s = .next t ∧ safeFor n t

/-- The next instruction's bytes are `op` and `a`, as the Computer fetches them at an instruction boundary with reset released. -/
def State.fetches (s : State) (op a : Byte) : Prop :=
  s.ring = .p3 ∧ s.resetLine = false ∧ s.cpuRead s.pc = op ∧ s.cpuRead (s.pc + 1#8) = a

/-- The parameter values of spec/47_arithmetic.md's preamble: P_BORROW_POLARITY = carry_out, P_ARITH_WRITEBACK = false. -/
def State.specArith (s : State) : Prop := s.cfg.borrowPolarity = .carryOut ∧ s.cfg.arithWriteback = false

/-- What an arithmetic instruction with operand address `x` leaves alone, and the byte it may store: every register but ACC, Z and C,
and every byte but, under P_ARITH_WRITEBACK with takeover false, the one at the effective address, which takes ACC's new value. -/
def State.arithFrame (x : Byte) (s t : State) : Prop :=
  t.pc = s.pc ∧ s.sameCycle t ∧ s.sameHostSide t ∧ s.sameMemoryBut (effectiveAddress x) t ∧
    (if s.cfg.arithWriteback && !s.takeover then s.mem.wf = true → t.memRead (effectiveAddress x) = t.acc else s.sameMemory t)

/-- 1 while a borrow is pending: C = 0 under carry_out, C = 1 under borrow (R311, R315). -/
def pendingBorrow (p : BorrowPolarity) (c : Bool) : Nat :=
  match p with
  | .carryOut => (!c).toNat
  | .borrow => c.toNat

/-- What a jump leaves alone: everything but PC. -/
def State.jumpFrame (s t : State) : Prop :=
  t.acc = s.acc ∧ s.sameFlags t ∧ s.sameCycle t ∧ s.sameHostSide t ∧ t.mem = s.mem

/-- The clock node is there, with no subscriber and no tag, and no drain is in progress: toggling it disturbs nothing. -/
def State.quietClock (s : State) : Bool :=
  match s.engine.nodes[clockNode]? with
  | some d => d.subs.isEmpty && d.tag.isNone && s.engine.idle
  | none => false

/-! Networks of gates. -/

/-- What drives a node: the gate a callback belongs to, read off the callback and the node it is subscribed to (R139, R140). -/
inductive Gate where
  | not (x : Nat)
  | op2 (f : GateFn) (x y : Nat)
  | op2K (f : GateFn) (x : Nat) (k : Bool)
  | sr (r s : Sig)
  deriving DecidableEq, Repr

/-- The nodes of a signal. -/
def Sig.nodes : Sig → List Nat
  | .const _ => []
  | .node n => [n]

/-- The nodes a gate reads. -/
def Gate.inputs : Gate → List Nat
  | .not x => [x]
  | .op2 _ x y => [x, y]
  | .op2K _ x _ => [x]
  | .sr r s => r.nodes ++ s.nodes

/-- The driven node and the gate of a callback subscribed to node `n`; a listener drives nothing. -/
def Callback.drives (n : Nat) : Callback → Option (Nat × Gate)
  | .not out => some (out, .not n)
  | .op2L f out other => some (out, .op2 f n other)
  | .op2R f out other => some (out, .op2 f other n)
  | .op2K f out k => some (out, .op2K f n k)
  | .sr q r s => some (q, .sr r s)
  | .listener _ _ => none

/-- One gate seen from one of its subscriptions: the node subscribed to, the node driven, the gate. -/
structure Wire where
  src : Nat
  out : Nat
  gate : Gate
  deriving DecidableEq, Repr

/-- Every gate of the arena, once for each of its subscriptions. -/
def Engine.wires (e : Engine) : List Wire :=
  (List.range e.nodes.length).flatMap fun n =>
    (e.subsOf n).filterMap fun cb => (cb.drives n).map fun og => ⟨n, og.1, og.2⟩

/-- Node `out` has the value its gate gives its inputs; a latch that holds, or draws, is not constrained (R170, R171, R200). -/
def Engine.gateHolds (e : Engine) (out : Nat) : Gate → Bool
  | .not x => e.read out == !e.read x
  | .op2 f x y => e.read out == f.apply (e.read x) (e.read y)
  | .op2K f x k => e.read out == f.apply (e.read x) k
  | .sr r s =>
    match e.readSig s, e.readSig r with
    | true, false => e.read out
    | false, true => !e.read out
    | false, false => true
    | true, true => true

/-- Every gate of the network has its settled value: "a fixed point" (R15, R147). -/
def Engine.consistent (e : Engine) : Bool := e.wires.all fun w => e.gateHolds w.out w.gate

/-- A network as the library builds it: every node is driven by at most one gate, every gate is subscribed to every node it reads,
and every handle names a node. -/
def Engine.wired (e : Engine) : Bool :=
  (e.wires.all fun w => e.wires.all fun w' => w.out != w'.out || w.gate == w'.gate) &&
    (e.wires.all fun w => w.gate.inputs.all fun m => e.wires.contains ⟨m, w.out, w.gate⟩) &&
    (e.wires.all fun w => decide (w.out < e.nodes.length) && w.gate.inputs.all fun m => decide (m < e.nodes.length))

/-- No gate drives node `n`: an input node, which the host may write (R148, R445). -/
def Engine.isInput (e : Engine) (n : Nat) : Bool := e.wires.all fun w => w.out != n

/-- Every subscription of `e` is still in `e'`: `e'` is a later engine of the same session with nothing unsubscribed. -/
def Engine.extendsTo (e e' : Engine) : Bool :=
  (List.range e.nodes.length).all fun n => (e.subsOf n).all fun cb => (e'.subsOf n).contains cb

end Sys2Proof.Machine
end

