-- ==== Sys2Proof/Certificates/Slice0/Obligations.lean ====
section
/-! DEFINITION. The statements for the provers, taken from the numbered rules of spec/. `step` is one whole instruction (log 1);
`exec` is an instruction's phase-3 action on the state its first two phases leave (log 26). -/

open Sys2Proof Sys2Proof.Machine

/-! ### Encoding (spec/30_encoding.md) -/

/-- R100, R102, R103: decoding and encoding agree in both directions, for every instruction, every operand byte and whatever bytes follow. -/
def Obligations.DecodeAndEncodeAgree : Prop :=
  ∀ (bs rest : List Byte) (i : Instr), i.wellFormed = true → (decode bs = .ok (i, rest) ↔ bs = encode i ++ rest)

/-- The decoder gives an instruction for exactly the twelve opcodes and rejects the 244 bytes 0x00 to 0x0F, 0x12 to 0x1F, 0x24 to 0x2F and
0x35 to 0xFE, each by name. The 244 bytes are R104's; that the decoder rejects them is the model's choice (log 23): R104 calls them defined
no-ops, and the machine runs them as such (UndefinedOpcodeIsANoOp). -/
def Obligations.UndefinedOpcodesAreRejectedByName : Prop :=
  (∀ op x : Byte, decodePair op x = .error (.undefinedOpcode op) ↔ undefinedOpcode op = true) ∧
    (∀ op x : Byte, (∃ i, decodePair op x = .ok i) ↔ undefinedOpcode op = false) ∧
    ((List.range 256).filter fun n => undefinedOpcode (BitVec.ofNat 8 n)).length = 244

/-- Words written out from R102, one for each family, decode to the instructions they stand for (V-N1); and a word of the undefined opcode
0x12 (R104, V-N2) decodes to none, which is the model's choice (log 23): R104 and R105 make it a defined no-op. -/
def Obligations.WordsFromTheTableDecode : Prop :=
  decodeTableWord 16 0x8010 = some (.lod 0x80#8) ∧ decodeTableWord 16 0x8123 = some (.sbb 0x81#8) ∧
    decodeTableWord 16 0x0233 = some (.jnz 0x02#8) ∧ decodeTableWord 16 0x00FF = some (.hlt 0x00#8) ∧
    decodeTableWord 16 0x8012 = none

/-! ### The cycle (spec/45_instruction_cycle.md) -/

/-- R284: at an instruction boundary with reset released, when the two bytes fetched decode to a well-formed instruction, the step is
that instruction's phase-3 action on the state that P1 and P2 leave: CR and AR latched, PC past both bytes, ring back at P3. -/
def Obligations.StepRunsTheDecodedInstruction : Prop :=
  ∀ (s : State) (i : Instr), s.ring = .p3 → s.resetLine = false → i.wellFormed = true →
    decode [s.cpuRead s.pc, s.cpuRead (s.pc + 1#8)] = .ok (i, []) →
    step s = exec i { s with
      cr := s.cpuRead s.pc
      ar := s.cpuRead (s.pc + 1#8)
      pc := s.pc + 2#8
      ring := .p3 }

/-- R337: an undefined opcode fetches its operand byte, advances PC by two and changes nothing else. -/
def Obligations.UndefinedOpcodeIsANoOp : Prop :=
  ∀ (s : State) (op a : Byte), s.fetches op a → undefinedOpcode op = true →
    step s = .next { s with cr := op, ar := a, pc := s.pc + 2#8 }

/-- R281: P1 latches the opcode byte at PC into CR and advances PC; no flag, ACC or byte of memory changes. -/
def Obligations.PhaseOneFetchesTheOpcode : Prop :=
  ∀ s : State, s.ring = .p3 → s.resetLine = false →
    phaseStep s = .next { s with cr := s.cpuRead s.pc, pc := s.pc + 1#8, ring := .p1 }

/-- R282: P2 latches the operand byte at PC into AR and advances PC, the same for every opcode in CR. -/
def Obligations.PhaseTwoFetchesTheOperand : Prop :=
  ∀ s : State, s.ring = .p1 → s.resetLine = false →
    phaseStep s = .next { s with ar := s.cpuRead s.pc, pc := s.pc + 1#8, ring := .p2 }

/-- R400, R105: whatever the bytes in memory, a machine that has been reset and whose reset line is released completes its next
instruction, at an instruction boundary: nothing traps and nothing is refused. -/
def Obligations.EveryInstructionCompletes : Prop :=
  ∀ s : State, s.ring ≠ .none → s.resetLine = false → ∃ t, step s = .next t ∧ t.ring = .p3

/-- R286, D9: while the reset line is asserted every phase step, and so every step (log 1), is refused. -/
def Obligations.ClockingWithResetHeldIsRefused : Prop :=
  ∀ s : State, s.resetLine = true →
    phaseStep s = .refused .clockWithResetHeld ∧ step s = .refused .clockWithResetHeld

/-- R285, D33: with ring = NONE a step performs no phase: it is refused under `refuse`, and leaves all state unchanged under `idle`. -/
def Obligations.ClockingBeforeTheFirstReset : Prop :=
  ∀ s : State, s.ring = .none → s.resetLine = false →
    (s.cfg.preResetClock = .refuse → phaseStep s = .refused .clockBeforeReset ∧ step s = .refused .clockBeforeReset) ∧
      (s.cfg.preResetClock = .idle → phaseStep s = .next s ∧ step s = .next s)

/-! ### Whole-machine rules -/

/-- R36: from any good state, a whole instruction and a single phase keep the ring at one of P1, P2, P3, the reset line released, and
the memory in its canonical form (the model's own form, log 5). -/
def Obligations.StepsKeepTheGoodState : Prop :=
  ∀ s t : State, s.good = true → (step s = .next t ∨ phaseStep s = .next t) → t.good = true

/-- R36: the state after reset is good (its canonical memory is the model's own form, log 5). -/
def Obligations.ResetStateIsGood : Prop := State.reset.good = true

/-- R280 to R283: no phase, and so no step (log 1), writes takeover or the override triple, which R29 gives to the host. The rest is so as the
model holds it: the reset line is a bit of State (log 6); the engine stands still because the toggles of R261 are the driver's, outside `step`
(logs 10 and 27); the configuration is the parameters of R10, which nothing changes (log 3). -/
def Obligations.OnlyTheHostChangesTheHostSide : Prop :=
  ∀ s t : State, (step s = .next t ∨ phaseStep s = .next t) → s.sameHostSide t

/-- R26, R27: an instruction that is not ADD, SUB, ADC or SBB completes and leaves Z and C alone. -/
def Obligations.OnlyArithmeticWritesTheFlags : Prop :=
  ∀ (i : Instr) (s : State), i.isArith = false → ∃ t, exec i s = .next t ∧ s.sameFlags t

/-- R301, R83, D4: with P_ARITH_WRITEBACK false, no instruction but STO changes memory; and none of the first two phases does. -/
def Obligations.OnlyStoWritesMemory : Prop :=
  (∀ (i : Instr) (s : State), s.cfg.arithWriteback = false → (∀ a, i ≠ .sto a) → ∃ t, exec i s = .next t ∧ t.mem = s.mem) ∧
    ∀ s t : State, (s.ring = .p3 ∨ s.ring = .p1) → phaseStep s = .next t → t.mem = s.mem

/-! ### The phase-3 action of each instruction: it completes, its result, its frame -/

/-- LOD (spec/46_data_transfer.md): ACC takes the byte the Computer reads at the operand address; nothing else changes. -/
def Obligations.LodLoadsTheAccumulator : Prop :=
  ∀ (a : Byte) (s : State), ∃ t, exec (.lod a) s = .next t ∧
    t.acc = (if s.takeover then s.memRead s.ovAddr else s.memRead a) ∧ t.pc = s.pc ∧
    s.sameFlags t ∧ s.sameCycle t ∧ s.sameHostSide t ∧ s.sameMemory t

/-- STO (spec/46_data_transfer.md): the byte at the effective address takes ACC, and no other byte changes; with takeover true no
byte changes. No register, flag or host line changes. -/
def Obligations.StoStoresTheAccumulator : Prop :=
  ∀ (a : Byte) (s : State), s.mem.wf = true → ∃ t, exec (.sto a) s = .next t ∧
    t.acc = s.acc ∧ t.pc = s.pc ∧ s.sameFlags t ∧ s.sameCycle t ∧ s.sameHostSide t ∧
    (s.takeover = false → t.memRead (effectiveAddress a) = s.acc ∧ s.sameMemoryBut (effectiveAddress a) t) ∧
    (s.takeover = true → s.sameMemory t)

/-- ADD (spec/47_arithmetic.md): ACC + m modulo 256; Z iff the sum is zero; C iff the sum is 256 or more; the old C is ignored. -/
def Obligations.AddAddsTheOperand : Prop :=
  ∀ (a : Byte) (s : State), ∃ t, exec (.add a) s = .next t ∧
    t.acc.toNat = (s.acc.toNat + (s.cpuRead a).toNat) % 256 ∧ (t.z = true ↔ t.acc.toNat = 0) ∧
    (t.c = true ↔ 256 ≤ s.acc.toNat + (s.cpuRead a).toNat) ∧ s.arithFrame a t

/-- SUB (spec/47_arithmetic.md; operand order D5, polarity D6): ACC − m modulo 256; C iff no borrow under carry_out, iff a borrow under
borrow. -/
def Obligations.SubSubtractsTheOperand : Prop :=
  ∀ (a : Byte) (s : State), ∃ t, exec (.sub a) s = .next t ∧
    t.acc.toNat = (s.acc.toNat + 256 - (s.cpuRead a).toNat) % 256 ∧ (t.z = true ↔ t.acc.toNat = 0) ∧
    (s.cfg.borrowPolarity = .carryOut → (t.c = true ↔ (s.cpuRead a).toNat ≤ s.acc.toNat)) ∧
    (s.cfg.borrowPolarity = .borrow → (t.c = true ↔ s.acc.toNat < (s.cpuRead a).toNat)) ∧ s.arithFrame a t

/-- ADC (spec/47_arithmetic.md): ACC + m + C modulo 256, with the C from before the instruction. -/
def Obligations.AdcAddsTheOperandAndTheCarry : Prop :=
  ∀ (a : Byte) (s : State), ∃ t, exec (.adc a) s = .next t ∧
    t.acc.toNat = (s.acc.toNat + (s.cpuRead a).toNat + s.c.toNat) % 256 ∧ (t.z = true ↔ t.acc.toNat = 0) ∧
    (t.c = true ↔ 256 ≤ s.acc.toNat + (s.cpuRead a).toNat + s.c.toNat) ∧ s.arithFrame a t

/-- SBB (spec/47_arithmetic.md; operand order D5, polarity D6): ACC − m − the pending borrow, modulo 256, under either polarity. -/
def Obligations.SbbSubtractsTheOperandAndTheBorrow : Prop :=
  ∀ (a : Byte) (s : State), ∃ t, exec (.sbb a) s = .next t ∧
    t.acc.toNat = (s.acc.toNat + 512 - (s.cpuRead a).toNat - pendingBorrow s.cfg.borrowPolarity s.c) % 256 ∧
    (t.z = true ↔ t.acc.toNat = 0) ∧
    (s.cfg.borrowPolarity = .carryOut →
      (t.c = true ↔ (s.cpuRead a).toNat + pendingBorrow s.cfg.borrowPolarity s.c ≤ s.acc.toNat)) ∧
    (s.cfg.borrowPolarity = .borrow →
      (t.c = true ↔ s.acc.toNat < (s.cpuRead a).toNat + pendingBorrow s.cfg.borrowPolarity s.c)) ∧ s.arithFrame a t

/-- JMP (spec/48_control_transfer.md): PC takes the operand; nothing else changes. -/
def Obligations.JmpAlwaysJumps : Prop :=
  ∀ (a : Byte) (s : State), ∃ t, exec (.jmp a) s = .next t ∧ t.pc = a ∧ s.jumpFrame t

/-- JIZ (spec/48_control_transfer.md): PC takes the operand iff Z = 1; nothing else changes. -/
def Obligations.JizJumpsOnZero : Prop :=
  ∀ (a : Byte) (s : State), ∃ t, exec (.jiz a) s = .next t ∧ t.pc = (if s.z = true then a else s.pc) ∧ s.jumpFrame t

/-- JIC (spec/48_control_transfer.md): PC takes the operand iff C = 1; nothing else changes. -/
def Obligations.JicJumpsOnCarry : Prop :=
  ∀ (a : Byte) (s : State), ∃ t, exec (.jic a) s = .next t ∧ t.pc = (if s.c = true then a else s.pc) ∧ s.jumpFrame t

/-- JNZ (spec/48_control_transfer.md): PC takes the operand iff Z = 0; nothing else changes. -/
def Obligations.JnzJumpsOnNotZero : Prop :=
  ∀ (a : Byte) (s : State), ∃ t, exec (.jnz a) s = .next t ∧ t.pc = (if s.z = false then a else s.pc) ∧ s.jumpFrame t

/-- JNC (spec/48_control_transfer.md): PC takes the operand iff C = 0; nothing else changes. -/
def Obligations.JncJumpsOnNotCarry : Prop :=
  ∀ (a : Byte) (s : State), ∃ t, exec (.jnc a) s = .next t ∧ t.pc = (if s.c = false then a else s.pc) ∧ s.jumpFrame t

/-- HLT (spec/48_control_transfer.md): no phase-3 action, whatever its operand byte. -/
def Obligations.HltHasNoPhaseThreeAction : Prop :=
  ∀ (x : Byte) (s : State), ∃ t, exec (.hlt x) s = .next t ∧ t.pc = s.pc ∧ s.jumpFrame t

/-! ### Whole instructions, from the two bytes in memory to the next boundary -/

/-- R300: LOD, fetched as 0x10 and its operand byte. -/
def Obligations.LodInstructionCycle : Prop :=
  ∀ (s : State) (a : Byte), s.fetches 0x10#8 a →
    step s = .next { s with cr := 0x10#8, ar := a, pc := s.pc + 2#8, acc := s.cpuRead a }

/-- R301: STO, fetched as 0x11 and its operand byte: the byte at `a` takes ACC unless takeover is true; everything else keeps its
value, and PC, CR and AR are as the cycle leaves them. A store into the instruction's own bytes changes nothing of this. -/
def Obligations.StoInstructionCycle : Prop :=
  ∀ (s : State) (a : Byte), s.fetches 0x11#8 a → s.mem.wf = true →
    ∃ t, step s = .next t ∧ t.cr = 0x11#8 ∧ t.ar = a ∧ t.pc = s.pc + 2#8 ∧ t.acc = s.acc ∧ t.ring = .p3 ∧
      s.sameFlags t ∧ s.sameHostSide t ∧ s.sameMemoryBut (effectiveAddress a) t ∧
      t.memRead (effectiveAddress a) = (if s.takeover then s.memRead (effectiveAddress a) else s.acc)

/-- R312: ADD at the spec's parameter values, fetched as 0x20 and its operand byte. -/
def Obligations.AddInstructionCycle : Prop :=
  ∀ (s : State) (a : Byte), s.fetches 0x20#8 a → s.specArith →
    step s = .next { s with
      cr := 0x20#8
      ar := a
      pc := s.pc + 2#8
      acc := s.acc + s.cpuRead a
      z := decide (s.acc + s.cpuRead a = 0x00#8)
      c := decide (256 ≤ s.acc.toNat + (s.cpuRead a).toNat) }

/-- R313 in its closed form, which the spec derives: SUB at the spec's parameter values, fetched as 0x21 and its operand byte. -/
def Obligations.SubInstructionCycle : Prop :=
  ∀ (s : State) (a : Byte), s.fetches 0x21#8 a → s.specArith →
    step s = .next { s with
      cr := 0x21#8
      ar := a
      pc := s.pc + 2#8
      acc := s.acc - s.cpuRead a
      z := decide (s.acc = s.cpuRead a)
      c := decide ((s.cpuRead a).toNat ≤ s.acc.toNat) }

/-- R314: ADC at the spec's parameter values, fetched as 0x22 and its operand byte. -/
def Obligations.AdcInstructionCycle : Prop :=
  ∀ (s : State) (a : Byte), s.fetches 0x22#8 a → s.specArith →
    step s = .next { s with
      cr := 0x22#8
      ar := a
      pc := s.pc + 2#8
      acc := s.acc + s.cpuRead a + BitVec.ofNat 8 s.c.toNat
      z := decide (s.acc + s.cpuRead a + BitVec.ofNat 8 s.c.toNat = 0x00#8)
      c := decide (256 ≤ s.acc.toNat + (s.cpuRead a).toNat + s.c.toNat) }

/-- R315 in its closed form, which the spec derives: SBB at the spec's parameter values, fetched as 0x23 and its operand byte; C = 0
means a borrow is pending. -/
def Obligations.SbbInstructionCycle : Prop :=
  ∀ (s : State) (a : Byte), s.fetches 0x23#8 a → s.specArith →
    step s = .next { s with
      cr := 0x23#8
      ar := a
      pc := s.pc + 2#8
      acc := s.acc - s.cpuRead a - BitVec.ofNat 8 (!s.c).toNat
      z := decide (s.acc - s.cpuRead a - BitVec.ofNat 8 (!s.c).toNat = 0x00#8)
      c := decide ((s.cpuRead a).toNat + (!s.c).toNat ≤ s.acc.toNat) }

/-- R330 to R335: the five jumps, fetched as 0x30 to 0x34: PC takes the operand when the condition holds, else it is past both bytes;
CR and AR are latched and nothing else changes. -/
def Obligations.JumpInstructionCycles : Prop :=
  ∀ (s : State) (a : Byte),
    (s.fetches 0x30#8 a → step s = .next { s with cr := 0x30#8, ar := a, pc := a }) ∧
    (s.fetches 0x31#8 a → step s = .next { s with cr := 0x31#8, ar := a, pc := if s.z then a else s.pc + 2#8 }) ∧
    (s.fetches 0x32#8 a → step s = .next { s with cr := 0x32#8, ar := a, pc := if s.c then a else s.pc + 2#8 }) ∧
    (s.fetches 0x33#8 a → step s = .next { s with cr := 0x33#8, ar := a, pc := if !s.z then a else s.pc + 2#8 }) ∧
    (s.fetches 0x34#8 a → step s = .next { s with cr := 0x34#8, ar := a, pc := if !s.c then a else s.pc + 2#8 })

/-- R336, R289, D12: HLT clocked through, fetched as 0xFF: PC is past both bytes and nothing but CR and AR changes; execution goes on there. -/
def Obligations.HltInstructionCycle : Prop :=
  ∀ (s : State) (x : Byte), s.fetches 0xFF#8 x → step s = .next { s with cr := 0xFF#8, ar := x, pc := s.pc + 2#8 }

/-! ### Arithmetic across instructions, and the arithmetic unit -/

/-- R317: ADD of the low bytes, a STO and a LOD of the high byte between, then ADC of the high bytes compute a 16-bit sum, and C ends
as its carry; under either polarity. -/
def Obligations.AddThenAdcIsSixteenBitAddition : Prop :=
  ∀ (s s1 s2 s3 s4 : State) (lo st hi a : Byte), s.cfg.arithWriteback = false →
    exec (.add lo) s = .next s1 → exec (.sto st) s1 = .next s2 → exec (.lod hi) s2 = .next s3 → exec (.adc a) s3 = .next s4 →
    s4.acc.toNat * 256 + s1.acc.toNat =
        (s3.acc.toNat * 256 + s.acc.toNat + ((s3.cpuRead a).toNat * 256 + (s.cpuRead lo).toNat)) % 65536 ∧
      (s4.c = true ↔ 65536 ≤ s3.acc.toNat * 256 + s.acc.toNat + ((s3.cpuRead a).toNat * 256 + (s.cpuRead lo).toNat))

/-- R317: SUB, STO, LOD, SBB compute a 16-bit difference under either polarity; only the meaning of the final C differs. -/
def Obligations.SubThenSbbIsSixteenBitSubtraction : Prop :=
  ∀ (s s1 s2 s3 s4 : State) (lo st hi a : Byte), s.cfg.arithWriteback = false →
    exec (.sub lo) s = .next s1 → exec (.sto st) s1 = .next s2 → exec (.lod hi) s2 = .next s3 → exec (.sbb a) s3 = .next s4 →
    s4.acc.toNat * 256 + s1.acc.toNat =
        (s3.acc.toNat * 256 + s.acc.toNat + 65536 - ((s3.cpuRead a).toNat * 256 + (s.cpuRead lo).toNat)) % 65536 ∧
      (s.cfg.borrowPolarity = .carryOut →
        (s4.c = true ↔ (s3.cpuRead a).toNat * 256 + (s.cpuRead lo).toNat ≤ s3.acc.toNat * 256 + s.acc.toNat)) ∧
      (s.cfg.borrowPolarity = .borrow →
        (s4.c = true ↔ s3.acc.toNat * 256 + s.acc.toNat < (s3.cpuRead a).toNat * 256 + (s.cpuRead lo).toNat))

/-- R310, R311: the machine's arithmetic is the library's MultiAdder on ACC and the inverted operand: same sum, carry-out and zero. -/
def Obligations.ArithmeticUnitIsTheLibrarysAdder : Prop :=
  ∀ (p : BorrowPolarity) (op : ArithOp) (acc m : Byte) (c : Bool),
    let t := arithTotal p op acc m c
    let u := Settled.arithUnit op.inverts (carryIn p op c) acc m
    busValue u.1 = (arithSum t).toNat ∧ u.2.1 = carryOut t ∧ u.2.2 = zeroFlag (arithSum t)

/-! ### Memory and the console (spec/20_memory.md) -/

/-- R82: writing V at A by the console's protocol and then reading any other address returns that address's last value; reading A
returns V. -/
def Obligations.ConsoleMemoryAddressing : Prop :=
  ∀ (s : State) (a a' v : Byte), s.mem.wf = true → s.ovWrite = false →
    ∃ t, (consoleLoad a.toNat [(v.toNat : Int)] s).state? = some t ∧
      (consoleRead a.toNat t).value? = some v ∧ (a' ≠ a → (consoleRead a'.toNat t).value? = some (s.memRead a'))

/-- R68, R70: loading bytes from address A with room for them leaves each byte at its address, every other byte alone, takeover and the
write line released, and the Computer's registers alone. -/
def Obligations.ConsoleLoadPlacesEveryByte : Prop :=
  ∀ (s : State) (a : Nat) (bytes : List Byte), s.mem.wf = true → s.ovWrite = false → a + bytes.length ≤ 256 →
    ∃ t, consoleLoad a (bytes.map fun b => (b.toNat : Int)) s = .returned () t ∧ t.takeover = false ∧ t.ovWrite = false ∧
      t.mem.wf = true ∧ t.acc = s.acc ∧ t.pc = s.pc ∧ s.sameFlags t ∧ s.sameCycle t ∧
      ∀ x, x < 256 → t.mem.read x = (if a ≤ x ∧ x < a + bytes.length then bytes.getD (x - a) 0x00#8 else s.mem.read x)

/-- R68, R69, R402, D30, in four clauses: a byte that does not fit, or an address past 0xFF (V-H2), ends the load in the host error, where the
bytes before it stay written, takeover stays true and no other byte changes; and a load or a read whose first address does not fit (V-H3)
changes nothing but takeover. -/
def Obligations.ConsoleOverflowKeepsEarlierBytes : Prop :=
  (∀ (s : State) (a : Nat) (bytes : List Byte) (bad : Int) (more : List Int),
    s.mem.wf = true → s.ovWrite = false → a + bytes.length < 256 → (bad < 0 ∨ 256 ≤ bad) →
    ∃ t, consoleLoad a (bytes.map (fun b => (b.toNat : Int)) ++ bad :: more) s = .hostError t ∧ t.takeover = true ∧
      ∀ x, x < 256 → t.mem.read x = (if a ≤ x ∧ x < a + bytes.length then bytes.getD (x - a) 0x00#8 else s.mem.read x)) ∧
    (∀ (s : State) (a : Nat) (bytes : List Byte) (b : Int) (more : List Int),
      s.mem.wf = true → s.ovWrite = false → a + bytes.length = 256 →
      ∃ t, consoleLoad a (bytes.map (fun b => (b.toNat : Int)) ++ b :: more) s = .hostError t ∧ t.takeover = true ∧
        ∀ x, x < 256 → t.mem.read x = (if a ≤ x then bytes.getD (x - a) 0x00#8 else s.mem.read x)) ∧
    (∀ (s : State) (a b : Int) (more : List Int), s.ovWrite = false → (a < 0 ∨ 256 ≤ a) →
      consoleLoad a (b :: more) s = .hostError { s with takeover := true }) ∧
    ∀ (s : State) (a : Int), s.ovWrite = false → (a < 0 ∨ 256 ≤ a) → consoleRead a s = .hostError { s with takeover := true }

/-- R69, D39: a console read returns MEM[A] and changes nothing but OV.addr; takeover ends false. -/
def Obligations.ConsoleReadDisturbsOnlyItsAddress : Prop :=
  ∀ (s : State) (a : Byte), s.ovWrite = false →
    consoleRead a.toNat s = .returned (s.memRead a) { s with ovAddr := a, takeover := false }

/-- R70, D30: ToBus gives the w bits of every integer from 0 to 2^w − 1 and rejects every other, and a rejected bus write reaches no node
(on a bus that holds a constant too, where the spec gives no order of checks: log 18); and the console's 8-bit conversion to a byte is the same conversion at w = 8. -/
def Obligations.BusConversionNeverTruncates : Prop :=
  (∀ (v : Int) (w : Nat),
    (0 ≤ v ∧ v < 2 ^ w → ∃ bits, toBus v w = some bits ∧ bits.length = w ∧ (busValue bits : Int) = v) ∧
      (¬ (0 ≤ v ∧ v < 2 ^ w) → toBus v w = none ∧
        ∀ (env : Env) (bus : List Sig) (e : Engine), bus.length = w →
          Engine.writeBus env bus v e = .error (.fault .bitWidthOverflow))) ∧
    ∀ v : Int,
      (0 ≤ v ∧ v < 256 → ∃ b, toByteBus v = some b ∧ (b.toNat : Int) = v ∧ toBus v 8 = some (bitsOf 8 b.toNat)) ∧
        (¬ (0 ≤ v ∧ v < 256) → toByteBus v = none ∧ toBus v 8 = none)

/-- R84, D14: with takeover true every byte the Computer reads is the one at OV.addr, and its writes have no effect; with takeover false
both go to the address given. In a whole instruction run so, no byte of memory changes. -/
def Obligations.TakeoverReroutesTheComputer : Prop :=
  (∀ (s : State) (a v : Byte), s.takeover = true → s.cpuRead a = s.memRead s.ovAddr ∧ s.cpuWrite a v = s) ∧
    (∀ (s : State) (a v : Byte), s.takeover = false → s.mem.wf = true →
      s.cpuRead a = s.memRead a ∧ (s.cpuWrite a v).memRead a = v ∧ s.sameMemoryBut a (s.cpuWrite a v)) ∧
    ∀ s t : State, s.takeover = true → step s = .next t → t.mem = s.mem

/-! ### Reset and the clock driver (spec/70_reset_and_hazards.md, spec/44_clock_driver.md) -/

/-- R35, R430, R433, D8, D9: while CR holds HLT or an undefined opcode, `reset()` sets PC to 0x00 and ring to P3, ends with the line released,
and changes nothing else. -/
def Obligations.ResetWritesOnlyPcAndRing : Prop :=
  ∀ s : State, (s.cr = 0xFF#8 ∨ undefinedOpcode s.cr = true) →
    reset s = .next { s with pc := 0x00#8, ring := .p3, resetLine := false }

/-- R433, D9: while CR holds an opcode with a phase-3 action, a reset is refused under `refuse`, and has the plain effect under `clean`. -/
def Obligations.ResetDuringAnInstruction : Prop :=
  ∀ s : State, s.cr ≠ 0xFF#8 → undefinedOpcode s.cr = false →
    (s.cfg.resetMidrun = .refuse → reset s = .refused .resetMidInstruction) ∧
      (s.cfg.resetMidrun = .clean → reset s = .next { s with pc := 0x00#8, ring := .p3, resetLine := false })

/-- R34, R35: the reset state is the machine constructed at the spec's parameter values (D7, log 4) and then reset. -/
def Obligations.ResetStateIsConstructionThenReset : Prop :=
  reset (State.construct Config.spec) = .next State.reset

/-- R284, R266, log 1, log 19: with nothing attached to the clock node, `run_phases(3k)` from an instruction boundary is k whole instructions. -/
def Obligations.PhasesAndInstructionsAgree : Prop :=
  ∀ (k : Nat) (s : State), s.ring = .p3 → s.resetLine = false → s.quietClock = true →
    runPhases (3 * k) s = Sys2Proof.core.run k (clearStop s)

/-- R267, D13: when `run_until(pred)` returns within its fuel (the model's own bound, log 11), it returns after the first phase after
which pred, a function of the phase-level state (log 29), or stop_req holds, never before the first phase. -/
def Obligations.RunUntilStopsAtTheFirstHit : Prop :=
  ∀ (fuel : Nat) (pred : PhaseState → Bool) (s t : State), runUntil fuel pred s = .next t →
    (pred t.phaseState = true ∨ t.stopReq = true) ∧
      ∃ n, 1 ≤ n ∧ n ≤ fuel ∧ runPhases n s = .next t ∧
        ∀ m u, 1 ≤ m → m < n → runPhases m s = .next u → pred u.phaseState = false ∧ u.stopReq = false

/-- R268, D11: when `run()`, with takeover false, returns within its fuel (log 11) without a stop request, CR holds 0xFF and ring is P2, and
for the address H of that HLT opcode byte PC is H + 2 modulo 256 and AR is the byte at H + 1 modulo 256. -/
def Obligations.RunEndsPastTheHltOperand : Prop :=
  ∀ (fuel : Nat) (s t : State), s.takeover = false → run fuel s = .next t → t.stopReq = false →
    t.cr = 0xFF#8 ∧ t.ring = .p2 ∧
      ∃ h : Byte, t.memRead h = 0xFF#8 ∧ t.pc = h + 2#8 ∧ t.ar = t.memRead (h + 1#8)

/-! ### The signal engine (spec/40_signal_engine.md) -/

/-- R135: "a write of the value already held is a no-op", in every state of the engine. -/
def Obligations.WriteOfHeldValueIsANoOp : Prop :=
  ∀ (v : Env) (e : Engine) (n : Nat) (b : Bool), n < e.nodes.length → e.read n = b → Engine.write v n b e = .ok e

/-- R137, D19: Unsubscribe removes the earliest registration and no other, or nothing when there is none; the queue keeps its entries. -/
def Obligations.UnsubscribeRemovesTheEarliest : Prop :=
  ∀ (e : Engine) (n : Nat) (cb : Callback),
    (Engine.unsubscribe n cb e).queue = e.queue ∧
      (∀ m, m ≠ n → (Engine.unsubscribe n cb e).subsOf m = e.subsOf m) ∧
      (∀ m, (Engine.unsubscribe n cb e).read m = e.read m) ∧
      (cb ∉ e.subsOf n → (Engine.unsubscribe n cb e).subsOf n = e.subsOf n) ∧
      ∀ front back, e.subsOf n = front ++ cb :: back → cb ∉ front → (Engine.unsubscribe n cb e).subsOf n = front ++ back

/-- R134, D17: outside a drain the queue is always empty: a Write that starts settled and returns leaves the engine settled. -/
def Obligations.WriteLeavesTheEngineSettled : Prop :=
  ∀ (v : Env) (e e' : Engine) (n : Nat) (b : Bool), e.idle = true → Engine.write v n b e = .ok e' → e'.idle = true

/-- R138: breadth-first order: a drain whose queue holds the entries of one depth first invokes exactly those entries, in their order, each
only enqueuing, and then drains exactly the entries they enqueued, the next depth, with the fuel that is left (log 11). If one of them
stops, so does the drain. -/
def Obligations.DrainIsBreadthFirst : Prop :=
  ∀ (v : Env) (n : Nat) (e : Engine), Engine.drain v (e.queue.length + n) e =
    match Engine.deliverAll v e.queue { e with queue := [] } with
    | .ok e' => Engine.drain v n e'
    | .error s => .error s

/-- R147, R149: in a network as the library builds it, whose gates all have their settled values, a host write of an input node that
settles leaves every gate at its settled value again: a fixed point. -/
def Obligations.SettlingReachesAFixedPoint : Prop :=
  ∀ (v : Env) (e e' : Engine) (n : Nat) (b : Bool),
    e.idle = true → e.wired = true → e.consistent = true → e.isInput n = true → Engine.write v n b e = .ok e' →
      e'.consistent = true ∧ e'.idle = true ∧ e'.wired = true

/-- R201: with both inputs true the latch takes a drawn value: either value is possible, nothing faults, and one draw is counted (the
model's own counter, log 7); in the other three cases none is. -/
def Obligations.LatchDrawIsFree : Prop :=
  ∀ (e : Engine) (nv : NotifyValue) (edge : RippleEdge) (fuel : Nat) (q : Nat) (r s : Sig) (a : Bool),
    (e.readSig s = true → e.readSig r = true → ∀ b : Bool, ∃ draw : Nat → Bool,
      Engine.act ⟨nv, fuel, draw, edge⟩ (.sr q r s) a e = .ok ({ e with draws := e.draws + 1 }, some (q, b))) ∧
    ∀ draw : Nat → Bool,
      (e.readSig s = true → e.readSig r = false → Engine.act ⟨nv, fuel, draw, edge⟩ (.sr q r s) a e = .ok (e, some (q, true))) ∧
      (e.readSig s = false → e.readSig r = true → Engine.act ⟨nv, fuel, draw, edge⟩ (.sr q r s) a e = .ok (e, some (q, false))) ∧
      (e.readSig s = false → e.readSig r = false → Engine.act ⟨nv, fuel, draw, edge⟩ (.sr q r s) a e = .ok (e, none))

/-! ### The library (spec/41_combinational.md, spec/43_counters.md) -/

/-- R179: the MultiAdder's sum bus is (x + y + c) mod 2^N and its carry-out is 1 iff x + y + c ≥ 2^N, for every width. -/
def Obligations.MultiAdderAddsModuloTheWidth : Prop :=
  ∀ (xs ys : List Bool) (c : Bool), xs.length = ys.length →
    busValue (Settled.multiAdder xs ys c).1 = (busValue xs + busValue ys + c.toNat) % 2 ^ xs.length ∧
      ((Settled.multiAdder xs ys c).2 = true ↔ 2 ^ xs.length ≤ busValue xs + busValue ys + c.toNat)

/-- R181: in subtract mode the unit yields x − y modulo 2^N with carry-out iff x ≥ y and overflow iff x < y; in add mode the sum, with
carry-out and overflow iff it exceeds 2^N − 1. The same of the unit built from gates, in every later engine of the session whose gates have
their settled values, by the value its `sub` input then holds. -/
def Obligations.AddSubtractUnitReportsOverflow : Prop :=
  (∀ (xs ys : List Bool), xs.length = ys.length →
    busValue (Settled.addSub xs ys true).1 = (busValue xs + 2 ^ xs.length - busValue ys) % 2 ^ xs.length ∧
      ((Settled.addSub xs ys true).2.1 = true ↔ busValue ys ≤ busValue xs) ∧
      ((Settled.addSub xs ys true).2.2 = true ↔ busValue xs < busValue ys) ∧
      busValue (Settled.addSub xs ys false).1 = (busValue xs + busValue ys) % 2 ^ xs.length ∧
      ((Settled.addSub xs ys false).2.1 = true ↔ 2 ^ xs.length ≤ busValue xs + busValue ys) ∧
      ((Settled.addSub xs ys false).2.2 = true ↔ 2 ^ xs.length ≤ busValue xs + busValue ys)) ∧
    ∀ (v : Env) (xs ys : List Sig) (sub : Sig) (out : List Sig × Sig × Sig) (e0 e1 e2 : Engine),
      (mkAddSub v xs ys sub) e0 = .ok (out, e1) → e1.extendsTo e2 = true → e2.consistent = true →
      (e2.readSig sub = true →
        busValue (e2.readBus out.1) =
            (busValue (e2.readBus xs) + 2 ^ xs.length - busValue (e2.readBus ys)) % 2 ^ xs.length ∧
          (e2.readSig out.2.1 = true ↔ busValue (e2.readBus ys) ≤ busValue (e2.readBus xs)) ∧
          (e2.readSig out.2.2 = true ↔ busValue (e2.readBus xs) < busValue (e2.readBus ys))) ∧
      (e2.readSig sub = false →
        busValue (e2.readBus out.1) = (busValue (e2.readBus xs) + busValue (e2.readBus ys)) % 2 ^ xs.length ∧
          (e2.readSig out.2.1 = true ↔ 2 ^ xs.length ≤ busValue (e2.readBus xs) + busValue (e2.readBus ys)) ∧
          (e2.readSig out.2.2 = true ↔ 2 ^ xs.length ≤ busValue (e2.readBus xs) + busValue (e2.readBus ys)))

/-- R177 to R179: the MultiAdder built from gates adds: in every later engine of the session whose gates have their settled values, the
built sum bus and carry-out are those of R179, whatever the input signals then hold. -/
def Obligations.BuiltAdderAddsWhenSettled : Prop :=
  ∀ (v : Env) (xs ys : List Sig) (c : Sig) (out : List Sig × Sig) (e0 e1 e2 : Engine),
    (mkMultiAdder v xs ys c) e0 = .ok (out, e1) → e1.extendsTo e2 = true → e2.consistent = true →
    busValue (e2.readBus out.1) =
        (busValue (e2.readBus xs) + busValue (e2.readBus ys) + (e2.readSig c).toNat) % 2 ^ xs.length ∧
      (e2.readSig out.2 = true ↔
        2 ^ xs.length ≤ busValue (e2.readBus xs) + busValue (e2.readBus ys) + (e2.readSig c).toNat)

/-- R237: at most one ring output is true after any sequence of falling edges and clear pulses, from any outputs of which at most one
is; a ring that starts all false stays so under every number of edges; and every phase step that answers shifts the Computer's own ring in
the same way (R28, R280). -/
def Obligations.RingStaysOneHot : Prop :=
  (∀ (out : List Bool) (events : List Settled.RingEvent), Settled.trueCount out ≤ 1 →
    Settled.trueCount (Settled.ringRun out events) ≤ 1) ∧
    (∀ n k : Nat, Settled.ringRun (List.replicate n false) (List.replicate k .fallingEdge) = List.replicate n false) ∧
    ∀ s t : State, phaseStep s = .next t → Settled.ringOutputs t.ring = Settled.ringShift (Settled.ringOutputs s.ring)
end

