-- ==== Sys2Proof/Laws/State.lean ====
section
/-! SUPPORT. One lemma per field per update of State, true by rfl, so that no later proof unfolds a record update. -/

namespace Sys2Proof.Machine.State

@[simp] theorem setMem_mem (s : State) (m : Memory) : (s.setMem m).mem = m := rfl
@[simp] theorem setMem_acc (s : State) (m : Memory) : (s.setMem m).acc = s.acc := rfl
@[simp] theorem setMem_pc (s : State) (m : Memory) : (s.setMem m).pc = s.pc := rfl
@[simp] theorem setMem_cr (s : State) (m : Memory) : (s.setMem m).cr = s.cr := rfl
@[simp] theorem setMem_ar (s : State) (m : Memory) : (s.setMem m).ar = s.ar := rfl
@[simp] theorem setMem_z (s : State) (m : Memory) : (s.setMem m).z = s.z := rfl
@[simp] theorem setMem_c (s : State) (m : Memory) : (s.setMem m).c = s.c := rfl
@[simp] theorem setMem_ring (s : State) (m : Memory) : (s.setMem m).ring = s.ring := rfl
@[simp] theorem setMem_takeover (s : State) (m : Memory) : (s.setMem m).takeover = s.takeover := rfl
@[simp] theorem setMem_ovAddr (s : State) (m : Memory) : (s.setMem m).ovAddr = s.ovAddr := rfl
@[simp] theorem setMem_ovData (s : State) (m : Memory) : (s.setMem m).ovData = s.ovData := rfl
@[simp] theorem setMem_ovWrite (s : State) (m : Memory) : (s.setMem m).ovWrite = s.ovWrite := rfl
@[simp] theorem setMem_resetLine (s : State) (m : Memory) : (s.setMem m).resetLine = s.resetLine := rfl
@[simp] theorem setMem_engine (s : State) (m : Memory) : (s.setMem m).engine = s.engine := rfl
@[simp] theorem setMem_cfg (s : State) (m : Memory) : (s.setMem m).cfg = s.cfg := rfl

@[simp] theorem setAcc_mem (s : State) (v : Byte) : (s.setAcc v).mem = s.mem := rfl
@[simp] theorem setAcc_acc (s : State) (v : Byte) : (s.setAcc v).acc = v := rfl
@[simp] theorem setAcc_pc (s : State) (v : Byte) : (s.setAcc v).pc = s.pc := rfl
@[simp] theorem setAcc_cr (s : State) (v : Byte) : (s.setAcc v).cr = s.cr := rfl
@[simp] theorem setAcc_ar (s : State) (v : Byte) : (s.setAcc v).ar = s.ar := rfl
@[simp] theorem setAcc_z (s : State) (v : Byte) : (s.setAcc v).z = s.z := rfl
@[simp] theorem setAcc_c (s : State) (v : Byte) : (s.setAcc v).c = s.c := rfl
@[simp] theorem setAcc_ring (s : State) (v : Byte) : (s.setAcc v).ring = s.ring := rfl
@[simp] theorem setAcc_takeover (s : State) (v : Byte) : (s.setAcc v).takeover = s.takeover := rfl
@[simp] theorem setAcc_ovAddr (s : State) (v : Byte) : (s.setAcc v).ovAddr = s.ovAddr := rfl
@[simp] theorem setAcc_ovData (s : State) (v : Byte) : (s.setAcc v).ovData = s.ovData := rfl
@[simp] theorem setAcc_ovWrite (s : State) (v : Byte) : (s.setAcc v).ovWrite = s.ovWrite := rfl
@[simp] theorem setAcc_resetLine (s : State) (v : Byte) : (s.setAcc v).resetLine = s.resetLine := rfl
@[simp] theorem setAcc_engine (s : State) (v : Byte) : (s.setAcc v).engine = s.engine := rfl
@[simp] theorem setAcc_cfg (s : State) (v : Byte) : (s.setAcc v).cfg = s.cfg := rfl

@[simp] theorem setPc_mem (s : State) (v : Byte) : (s.setPc v).mem = s.mem := rfl
@[simp] theorem setPc_acc (s : State) (v : Byte) : (s.setPc v).acc = s.acc := rfl
@[simp] theorem setPc_pc (s : State) (v : Byte) : (s.setPc v).pc = v := rfl
@[simp] theorem setPc_cr (s : State) (v : Byte) : (s.setPc v).cr = s.cr := rfl
@[simp] theorem setPc_ar (s : State) (v : Byte) : (s.setPc v).ar = s.ar := rfl
@[simp] theorem setPc_z (s : State) (v : Byte) : (s.setPc v).z = s.z := rfl
@[simp] theorem setPc_c (s : State) (v : Byte) : (s.setPc v).c = s.c := rfl
@[simp] theorem setPc_ring (s : State) (v : Byte) : (s.setPc v).ring = s.ring := rfl
@[simp] theorem setPc_takeover (s : State) (v : Byte) : (s.setPc v).takeover = s.takeover := rfl
@[simp] theorem setPc_ovAddr (s : State) (v : Byte) : (s.setPc v).ovAddr = s.ovAddr := rfl
@[simp] theorem setPc_ovData (s : State) (v : Byte) : (s.setPc v).ovData = s.ovData := rfl
@[simp] theorem setPc_ovWrite (s : State) (v : Byte) : (s.setPc v).ovWrite = s.ovWrite := rfl
@[simp] theorem setPc_resetLine (s : State) (v : Byte) : (s.setPc v).resetLine = s.resetLine := rfl
@[simp] theorem setPc_engine (s : State) (v : Byte) : (s.setPc v).engine = s.engine := rfl
@[simp] theorem setPc_cfg (s : State) (v : Byte) : (s.setPc v).cfg = s.cfg := rfl

@[simp] theorem setCr_mem (s : State) (v : Byte) : (s.setCr v).mem = s.mem := rfl
@[simp] theorem setCr_acc (s : State) (v : Byte) : (s.setCr v).acc = s.acc := rfl
@[simp] theorem setCr_pc (s : State) (v : Byte) : (s.setCr v).pc = s.pc := rfl
@[simp] theorem setCr_cr (s : State) (v : Byte) : (s.setCr v).cr = v := rfl
@[simp] theorem setCr_ar (s : State) (v : Byte) : (s.setCr v).ar = s.ar := rfl
@[simp] theorem setCr_z (s : State) (v : Byte) : (s.setCr v).z = s.z := rfl
@[simp] theorem setCr_c (s : State) (v : Byte) : (s.setCr v).c = s.c := rfl
@[simp] theorem setCr_ring (s : State) (v : Byte) : (s.setCr v).ring = s.ring := rfl
@[simp] theorem setCr_takeover (s : State) (v : Byte) : (s.setCr v).takeover = s.takeover := rfl
@[simp] theorem setCr_ovAddr (s : State) (v : Byte) : (s.setCr v).ovAddr = s.ovAddr := rfl
@[simp] theorem setCr_ovData (s : State) (v : Byte) : (s.setCr v).ovData = s.ovData := rfl
@[simp] theorem setCr_ovWrite (s : State) (v : Byte) : (s.setCr v).ovWrite = s.ovWrite := rfl
@[simp] theorem setCr_resetLine (s : State) (v : Byte) : (s.setCr v).resetLine = s.resetLine := rfl
@[simp] theorem setCr_engine (s : State) (v : Byte) : (s.setCr v).engine = s.engine := rfl
@[simp] theorem setCr_cfg (s : State) (v : Byte) : (s.setCr v).cfg = s.cfg := rfl

@[simp] theorem setAr_mem (s : State) (v : Byte) : (s.setAr v).mem = s.mem := rfl
@[simp] theorem setAr_acc (s : State) (v : Byte) : (s.setAr v).acc = s.acc := rfl
@[simp] theorem setAr_pc (s : State) (v : Byte) : (s.setAr v).pc = s.pc := rfl
@[simp] theorem setAr_cr (s : State) (v : Byte) : (s.setAr v).cr = s.cr := rfl
@[simp] theorem setAr_ar (s : State) (v : Byte) : (s.setAr v).ar = v := rfl
@[simp] theorem setAr_z (s : State) (v : Byte) : (s.setAr v).z = s.z := rfl
@[simp] theorem setAr_c (s : State) (v : Byte) : (s.setAr v).c = s.c := rfl
@[simp] theorem setAr_ring (s : State) (v : Byte) : (s.setAr v).ring = s.ring := rfl
@[simp] theorem setAr_takeover (s : State) (v : Byte) : (s.setAr v).takeover = s.takeover := rfl
@[simp] theorem setAr_ovAddr (s : State) (v : Byte) : (s.setAr v).ovAddr = s.ovAddr := rfl
@[simp] theorem setAr_ovData (s : State) (v : Byte) : (s.setAr v).ovData = s.ovData := rfl
@[simp] theorem setAr_ovWrite (s : State) (v : Byte) : (s.setAr v).ovWrite = s.ovWrite := rfl
@[simp] theorem setAr_resetLine (s : State) (v : Byte) : (s.setAr v).resetLine = s.resetLine := rfl
@[simp] theorem setAr_engine (s : State) (v : Byte) : (s.setAr v).engine = s.engine := rfl
@[simp] theorem setAr_cfg (s : State) (v : Byte) : (s.setAr v).cfg = s.cfg := rfl

@[simp] theorem setZ_mem (s : State) (b : Bool) : (s.setZ b).mem = s.mem := rfl
@[simp] theorem setZ_acc (s : State) (b : Bool) : (s.setZ b).acc = s.acc := rfl
@[simp] theorem setZ_pc (s : State) (b : Bool) : (s.setZ b).pc = s.pc := rfl
@[simp] theorem setZ_cr (s : State) (b : Bool) : (s.setZ b).cr = s.cr := rfl
@[simp] theorem setZ_ar (s : State) (b : Bool) : (s.setZ b).ar = s.ar := rfl
@[simp] theorem setZ_z (s : State) (b : Bool) : (s.setZ b).z = b := rfl
@[simp] theorem setZ_c (s : State) (b : Bool) : (s.setZ b).c = s.c := rfl
@[simp] theorem setZ_ring (s : State) (b : Bool) : (s.setZ b).ring = s.ring := rfl
@[simp] theorem setZ_takeover (s : State) (b : Bool) : (s.setZ b).takeover = s.takeover := rfl
@[simp] theorem setZ_ovAddr (s : State) (b : Bool) : (s.setZ b).ovAddr = s.ovAddr := rfl
@[simp] theorem setZ_ovData (s : State) (b : Bool) : (s.setZ b).ovData = s.ovData := rfl
@[simp] theorem setZ_ovWrite (s : State) (b : Bool) : (s.setZ b).ovWrite = s.ovWrite := rfl
@[simp] theorem setZ_resetLine (s : State) (b : Bool) : (s.setZ b).resetLine = s.resetLine := rfl
@[simp] theorem setZ_engine (s : State) (b : Bool) : (s.setZ b).engine = s.engine := rfl
@[simp] theorem setZ_cfg (s : State) (b : Bool) : (s.setZ b).cfg = s.cfg := rfl

@[simp] theorem setC_mem (s : State) (b : Bool) : (s.setC b).mem = s.mem := rfl
@[simp] theorem setC_acc (s : State) (b : Bool) : (s.setC b).acc = s.acc := rfl
@[simp] theorem setC_pc (s : State) (b : Bool) : (s.setC b).pc = s.pc := rfl
@[simp] theorem setC_cr (s : State) (b : Bool) : (s.setC b).cr = s.cr := rfl
@[simp] theorem setC_ar (s : State) (b : Bool) : (s.setC b).ar = s.ar := rfl
@[simp] theorem setC_z (s : State) (b : Bool) : (s.setC b).z = s.z := rfl
@[simp] theorem setC_c (s : State) (b : Bool) : (s.setC b).c = b := rfl
@[simp] theorem setC_ring (s : State) (b : Bool) : (s.setC b).ring = s.ring := rfl
@[simp] theorem setC_takeover (s : State) (b : Bool) : (s.setC b).takeover = s.takeover := rfl
@[simp] theorem setC_ovAddr (s : State) (b : Bool) : (s.setC b).ovAddr = s.ovAddr := rfl
@[simp] theorem setC_ovData (s : State) (b : Bool) : (s.setC b).ovData = s.ovData := rfl
@[simp] theorem setC_ovWrite (s : State) (b : Bool) : (s.setC b).ovWrite = s.ovWrite := rfl
@[simp] theorem setC_resetLine (s : State) (b : Bool) : (s.setC b).resetLine = s.resetLine := rfl
@[simp] theorem setC_engine (s : State) (b : Bool) : (s.setC b).engine = s.engine := rfl
@[simp] theorem setC_cfg (s : State) (b : Bool) : (s.setC b).cfg = s.cfg := rfl

@[simp] theorem setRing_mem (s : State) (r : Ring) : (s.setRing r).mem = s.mem := rfl
@[simp] theorem setRing_acc (s : State) (r : Ring) : (s.setRing r).acc = s.acc := rfl
@[simp] theorem setRing_pc (s : State) (r : Ring) : (s.setRing r).pc = s.pc := rfl
@[simp] theorem setRing_cr (s : State) (r : Ring) : (s.setRing r).cr = s.cr := rfl
@[simp] theorem setRing_ar (s : State) (r : Ring) : (s.setRing r).ar = s.ar := rfl
@[simp] theorem setRing_z (s : State) (r : Ring) : (s.setRing r).z = s.z := rfl
@[simp] theorem setRing_c (s : State) (r : Ring) : (s.setRing r).c = s.c := rfl
@[simp] theorem setRing_ring (s : State) (r : Ring) : (s.setRing r).ring = r := rfl
@[simp] theorem setRing_takeover (s : State) (r : Ring) : (s.setRing r).takeover = s.takeover := rfl
@[simp] theorem setRing_ovAddr (s : State) (r : Ring) : (s.setRing r).ovAddr = s.ovAddr := rfl
@[simp] theorem setRing_ovData (s : State) (r : Ring) : (s.setRing r).ovData = s.ovData := rfl
@[simp] theorem setRing_ovWrite (s : State) (r : Ring) : (s.setRing r).ovWrite = s.ovWrite := rfl
@[simp] theorem setRing_resetLine (s : State) (r : Ring) : (s.setRing r).resetLine = s.resetLine := rfl
@[simp] theorem setRing_engine (s : State) (r : Ring) : (s.setRing r).engine = s.engine := rfl
@[simp] theorem setRing_cfg (s : State) (r : Ring) : (s.setRing r).cfg = s.cfg := rfl

@[simp] theorem setTakeoverLine_mem (s : State) (b : Bool) : (s.setTakeoverLine b).mem = s.mem := rfl
@[simp] theorem setTakeoverLine_acc (s : State) (b : Bool) : (s.setTakeoverLine b).acc = s.acc := rfl
@[simp] theorem setTakeoverLine_pc (s : State) (b : Bool) : (s.setTakeoverLine b).pc = s.pc := rfl
@[simp] theorem setTakeoverLine_cr (s : State) (b : Bool) : (s.setTakeoverLine b).cr = s.cr := rfl
@[simp] theorem setTakeoverLine_ar (s : State) (b : Bool) : (s.setTakeoverLine b).ar = s.ar := rfl
@[simp] theorem setTakeoverLine_z (s : State) (b : Bool) : (s.setTakeoverLine b).z = s.z := rfl
@[simp] theorem setTakeoverLine_c (s : State) (b : Bool) : (s.setTakeoverLine b).c = s.c := rfl
@[simp] theorem setTakeoverLine_ring (s : State) (b : Bool) : (s.setTakeoverLine b).ring = s.ring := rfl
@[simp] theorem setTakeoverLine_takeover (s : State) (b : Bool) : (s.setTakeoverLine b).takeover = b := rfl
@[simp] theorem setTakeoverLine_ovAddr (s : State) (b : Bool) : (s.setTakeoverLine b).ovAddr = s.ovAddr := rfl
@[simp] theorem setTakeoverLine_ovData (s : State) (b : Bool) : (s.setTakeoverLine b).ovData = s.ovData := rfl
@[simp] theorem setTakeoverLine_ovWrite (s : State) (b : Bool) : (s.setTakeoverLine b).ovWrite = s.ovWrite := rfl
@[simp] theorem setTakeoverLine_resetLine (s : State) (b : Bool) : (s.setTakeoverLine b).resetLine = s.resetLine := rfl
@[simp] theorem setTakeoverLine_engine (s : State) (b : Bool) : (s.setTakeoverLine b).engine = s.engine := rfl
@[simp] theorem setTakeoverLine_cfg (s : State) (b : Bool) : (s.setTakeoverLine b).cfg = s.cfg := rfl

@[simp] theorem setOvAddr_mem (s : State) (v : Byte) : (s.setOvAddr v).mem = s.mem := rfl
@[simp] theorem setOvAddr_acc (s : State) (v : Byte) : (s.setOvAddr v).acc = s.acc := rfl
@[simp] theorem setOvAddr_pc (s : State) (v : Byte) : (s.setOvAddr v).pc = s.pc := rfl
@[simp] theorem setOvAddr_cr (s : State) (v : Byte) : (s.setOvAddr v).cr = s.cr := rfl
@[simp] theorem setOvAddr_ar (s : State) (v : Byte) : (s.setOvAddr v).ar = s.ar := rfl
@[simp] theorem setOvAddr_z (s : State) (v : Byte) : (s.setOvAddr v).z = s.z := rfl
@[simp] theorem setOvAddr_c (s : State) (v : Byte) : (s.setOvAddr v).c = s.c := rfl
@[simp] theorem setOvAddr_ring (s : State) (v : Byte) : (s.setOvAddr v).ring = s.ring := rfl
@[simp] theorem setOvAddr_takeover (s : State) (v : Byte) : (s.setOvAddr v).takeover = s.takeover := rfl
@[simp] theorem setOvAddr_ovAddr (s : State) (v : Byte) : (s.setOvAddr v).ovAddr = v := rfl
@[simp] theorem setOvAddr_ovData (s : State) (v : Byte) : (s.setOvAddr v).ovData = s.ovData := rfl
@[simp] theorem setOvAddr_ovWrite (s : State) (v : Byte) : (s.setOvAddr v).ovWrite = s.ovWrite := rfl
@[simp] theorem setOvAddr_resetLine (s : State) (v : Byte) : (s.setOvAddr v).resetLine = s.resetLine := rfl
@[simp] theorem setOvAddr_engine (s : State) (v : Byte) : (s.setOvAddr v).engine = s.engine := rfl
@[simp] theorem setOvAddr_cfg (s : State) (v : Byte) : (s.setOvAddr v).cfg = s.cfg := rfl

@[simp] theorem setOvData_mem (s : State) (v : Byte) : (s.setOvData v).mem = s.mem := rfl
@[simp] theorem setOvData_acc (s : State) (v : Byte) : (s.setOvData v).acc = s.acc := rfl
@[simp] theorem setOvData_pc (s : State) (v : Byte) : (s.setOvData v).pc = s.pc := rfl
@[simp] theorem setOvData_cr (s : State) (v : Byte) : (s.setOvData v).cr = s.cr := rfl
@[simp] theorem setOvData_ar (s : State) (v : Byte) : (s.setOvData v).ar = s.ar := rfl
@[simp] theorem setOvData_z (s : State) (v : Byte) : (s.setOvData v).z = s.z := rfl
@[simp] theorem setOvData_c (s : State) (v : Byte) : (s.setOvData v).c = s.c := rfl
@[simp] theorem setOvData_ring (s : State) (v : Byte) : (s.setOvData v).ring = s.ring := rfl
@[simp] theorem setOvData_takeover (s : State) (v : Byte) : (s.setOvData v).takeover = s.takeover := rfl
@[simp] theorem setOvData_ovAddr (s : State) (v : Byte) : (s.setOvData v).ovAddr = s.ovAddr := rfl
@[simp] theorem setOvData_ovData (s : State) (v : Byte) : (s.setOvData v).ovData = v := rfl
@[simp] theorem setOvData_ovWrite (s : State) (v : Byte) : (s.setOvData v).ovWrite = s.ovWrite := rfl
@[simp] theorem setOvData_resetLine (s : State) (v : Byte) : (s.setOvData v).resetLine = s.resetLine := rfl
@[simp] theorem setOvData_engine (s : State) (v : Byte) : (s.setOvData v).engine = s.engine := rfl
@[simp] theorem setOvData_cfg (s : State) (v : Byte) : (s.setOvData v).cfg = s.cfg := rfl

@[simp] theorem setOvWrite_mem (s : State) (b : Bool) : (s.setOvWrite b).mem = s.mem := rfl
@[simp] theorem setOvWrite_acc (s : State) (b : Bool) : (s.setOvWrite b).acc = s.acc := rfl
@[simp] theorem setOvWrite_pc (s : State) (b : Bool) : (s.setOvWrite b).pc = s.pc := rfl
@[simp] theorem setOvWrite_cr (s : State) (b : Bool) : (s.setOvWrite b).cr = s.cr := rfl
@[simp] theorem setOvWrite_ar (s : State) (b : Bool) : (s.setOvWrite b).ar = s.ar := rfl
@[simp] theorem setOvWrite_z (s : State) (b : Bool) : (s.setOvWrite b).z = s.z := rfl
@[simp] theorem setOvWrite_c (s : State) (b : Bool) : (s.setOvWrite b).c = s.c := rfl
@[simp] theorem setOvWrite_ring (s : State) (b : Bool) : (s.setOvWrite b).ring = s.ring := rfl
@[simp] theorem setOvWrite_takeover (s : State) (b : Bool) : (s.setOvWrite b).takeover = s.takeover := rfl
@[simp] theorem setOvWrite_ovAddr (s : State) (b : Bool) : (s.setOvWrite b).ovAddr = s.ovAddr := rfl
@[simp] theorem setOvWrite_ovData (s : State) (b : Bool) : (s.setOvWrite b).ovData = s.ovData := rfl
@[simp] theorem setOvWrite_ovWrite (s : State) (b : Bool) : (s.setOvWrite b).ovWrite = b := rfl
@[simp] theorem setOvWrite_resetLine (s : State) (b : Bool) : (s.setOvWrite b).resetLine = s.resetLine := rfl
@[simp] theorem setOvWrite_engine (s : State) (b : Bool) : (s.setOvWrite b).engine = s.engine := rfl
@[simp] theorem setOvWrite_cfg (s : State) (b : Bool) : (s.setOvWrite b).cfg = s.cfg := rfl

@[simp] theorem setResetLine_mem (s : State) (b : Bool) : (s.setResetLine b).mem = s.mem := rfl
@[simp] theorem setResetLine_acc (s : State) (b : Bool) : (s.setResetLine b).acc = s.acc := rfl
@[simp] theorem setResetLine_pc (s : State) (b : Bool) : (s.setResetLine b).pc = s.pc := rfl
@[simp] theorem setResetLine_cr (s : State) (b : Bool) : (s.setResetLine b).cr = s.cr := rfl
@[simp] theorem setResetLine_ar (s : State) (b : Bool) : (s.setResetLine b).ar = s.ar := rfl
@[simp] theorem setResetLine_z (s : State) (b : Bool) : (s.setResetLine b).z = s.z := rfl
@[simp] theorem setResetLine_c (s : State) (b : Bool) : (s.setResetLine b).c = s.c := rfl
@[simp] theorem setResetLine_ring (s : State) (b : Bool) : (s.setResetLine b).ring = s.ring := rfl
@[simp] theorem setResetLine_takeover (s : State) (b : Bool) : (s.setResetLine b).takeover = s.takeover := rfl
@[simp] theorem setResetLine_ovAddr (s : State) (b : Bool) : (s.setResetLine b).ovAddr = s.ovAddr := rfl
@[simp] theorem setResetLine_ovData (s : State) (b : Bool) : (s.setResetLine b).ovData = s.ovData := rfl
@[simp] theorem setResetLine_ovWrite (s : State) (b : Bool) : (s.setResetLine b).ovWrite = s.ovWrite := rfl
@[simp] theorem setResetLine_resetLine (s : State) (b : Bool) : (s.setResetLine b).resetLine = b := rfl
@[simp] theorem setResetLine_engine (s : State) (b : Bool) : (s.setResetLine b).engine = s.engine := rfl
@[simp] theorem setResetLine_cfg (s : State) (b : Bool) : (s.setResetLine b).cfg = s.cfg := rfl

@[simp] theorem setEngine_mem (s : State) (e : Engine) : (s.setEngine e).mem = s.mem := rfl
@[simp] theorem setEngine_acc (s : State) (e : Engine) : (s.setEngine e).acc = s.acc := rfl
@[simp] theorem setEngine_pc (s : State) (e : Engine) : (s.setEngine e).pc = s.pc := rfl
@[simp] theorem setEngine_cr (s : State) (e : Engine) : (s.setEngine e).cr = s.cr := rfl
@[simp] theorem setEngine_ar (s : State) (e : Engine) : (s.setEngine e).ar = s.ar := rfl
@[simp] theorem setEngine_z (s : State) (e : Engine) : (s.setEngine e).z = s.z := rfl
@[simp] theorem setEngine_c (s : State) (e : Engine) : (s.setEngine e).c = s.c := rfl
@[simp] theorem setEngine_ring (s : State) (e : Engine) : (s.setEngine e).ring = s.ring := rfl
@[simp] theorem setEngine_takeover (s : State) (e : Engine) : (s.setEngine e).takeover = s.takeover := rfl
@[simp] theorem setEngine_ovAddr (s : State) (e : Engine) : (s.setEngine e).ovAddr = s.ovAddr := rfl
@[simp] theorem setEngine_ovData (s : State) (e : Engine) : (s.setEngine e).ovData = s.ovData := rfl
@[simp] theorem setEngine_ovWrite (s : State) (e : Engine) : (s.setEngine e).ovWrite = s.ovWrite := rfl
@[simp] theorem setEngine_resetLine (s : State) (e : Engine) : (s.setEngine e).resetLine = s.resetLine := rfl
@[simp] theorem setEngine_engine (s : State) (e : Engine) : (s.setEngine e).engine = e := rfl
@[simp] theorem setEngine_cfg (s : State) (e : Engine) : (s.setEngine e).cfg = s.cfg := rfl

@[simp] theorem bumpPc_mem (s : State) : s.bumpPc.mem = s.mem := rfl
@[simp] theorem bumpPc_acc (s : State) : s.bumpPc.acc = s.acc := rfl
@[simp] theorem bumpPc_pc (s : State) : s.bumpPc.pc = s.pc + 1#8 := rfl
@[simp] theorem bumpPc_cr (s : State) : s.bumpPc.cr = s.cr := rfl
@[simp] theorem bumpPc_ar (s : State) : s.bumpPc.ar = s.ar := rfl
@[simp] theorem bumpPc_z (s : State) : s.bumpPc.z = s.z := rfl
@[simp] theorem bumpPc_c (s : State) : s.bumpPc.c = s.c := rfl
@[simp] theorem bumpPc_ring (s : State) : s.bumpPc.ring = s.ring := rfl
@[simp] theorem bumpPc_takeover (s : State) : s.bumpPc.takeover = s.takeover := rfl
@[simp] theorem bumpPc_ovAddr (s : State) : s.bumpPc.ovAddr = s.ovAddr := rfl
@[simp] theorem bumpPc_ovData (s : State) : s.bumpPc.ovData = s.ovData := rfl
@[simp] theorem bumpPc_ovWrite (s : State) : s.bumpPc.ovWrite = s.ovWrite := rfl
@[simp] theorem bumpPc_resetLine (s : State) : s.bumpPc.resetLine = s.resetLine := rfl
@[simp] theorem bumpPc_engine (s : State) : s.bumpPc.engine = s.engine := rfl
@[simp] theorem bumpPc_cfg (s : State) : s.bumpPc.cfg = s.cfg := rfl

@[simp] theorem memWrite_mem (s : State) (a v : Byte) : (s.memWrite a v).mem = s.mem.write a.toNat v := rfl
@[simp] theorem memWrite_acc (s : State) (a v : Byte) : (s.memWrite a v).acc = s.acc := rfl
@[simp] theorem memWrite_pc (s : State) (a v : Byte) : (s.memWrite a v).pc = s.pc := rfl
@[simp] theorem memWrite_cr (s : State) (a v : Byte) : (s.memWrite a v).cr = s.cr := rfl
@[simp] theorem memWrite_ar (s : State) (a v : Byte) : (s.memWrite a v).ar = s.ar := rfl
@[simp] theorem memWrite_z (s : State) (a v : Byte) : (s.memWrite a v).z = s.z := rfl
@[simp] theorem memWrite_c (s : State) (a v : Byte) : (s.memWrite a v).c = s.c := rfl
@[simp] theorem memWrite_ring (s : State) (a v : Byte) : (s.memWrite a v).ring = s.ring := rfl
@[simp] theorem memWrite_takeover (s : State) (a v : Byte) : (s.memWrite a v).takeover = s.takeover := rfl
@[simp] theorem memWrite_ovAddr (s : State) (a v : Byte) : (s.memWrite a v).ovAddr = s.ovAddr := rfl
@[simp] theorem memWrite_ovData (s : State) (a v : Byte) : (s.memWrite a v).ovData = s.ovData := rfl
@[simp] theorem memWrite_ovWrite (s : State) (a v : Byte) : (s.memWrite a v).ovWrite = s.ovWrite := rfl
@[simp] theorem memWrite_resetLine (s : State) (a v : Byte) : (s.memWrite a v).resetLine = s.resetLine := rfl
@[simp] theorem memWrite_engine (s : State) (a v : Byte) : (s.memWrite a v).engine = s.engine := rfl
@[simp] theorem memWrite_cfg (s : State) (a v : Byte) : (s.memWrite a v).cfg = s.cfg := rfl

@[simp] theorem phaseState_mem (s : State) : s.phaseState.mem = s.mem := rfl
@[simp] theorem phaseState_acc (s : State) : s.phaseState.acc = s.acc := rfl
@[simp] theorem phaseState_pc (s : State) : s.phaseState.pc = s.pc := rfl
@[simp] theorem phaseState_cr (s : State) : s.phaseState.cr = s.cr := rfl
@[simp] theorem phaseState_ar (s : State) : s.phaseState.ar = s.ar := rfl
@[simp] theorem phaseState_z (s : State) : s.phaseState.z = s.z := rfl
@[simp] theorem phaseState_c (s : State) : s.phaseState.c = s.c := rfl
@[simp] theorem phaseState_ring (s : State) : s.phaseState.ring = s.ring := rfl
@[simp] theorem phaseState_takeover (s : State) : s.phaseState.takeover = s.takeover := rfl
@[simp] theorem phaseState_ovAddr (s : State) : s.phaseState.ovAddr = s.ovAddr := rfl
@[simp] theorem phaseState_ovData (s : State) : s.phaseState.ovData = s.ovData := rfl
@[simp] theorem phaseState_ovWrite (s : State) : s.phaseState.ovWrite = s.ovWrite := rfl
@[simp] theorem phaseState_stopReq (s : State) : s.phaseState.stopReq = s.stopReq := rfl

end Sys2Proof.Machine.State
end

