-- ==== Sys2Proof/Laws/Memory.lean ====
section
/-! SUPPORT. The laws of memory: every operation keeps the canonical form, a read after a write, and equal reads of canonical
memories are equal memories (spec/20_memory.md R62, R63). -/

namespace Sys2Proof.Machine.Memory

@[simp] theorem read_nil (a : Nat) : read [] a = blank := rfl

theorem wfFrom_cons {lo a : Nat} {v : Byte} {m : Memory} :
    wfFrom lo ((a, v) :: m) = true ↔ lo ≤ a ∧ a < 256 ∧ v ≠ blank ∧ wfFrom (a + 1) m = true := by
  simp [wfFrom, and_assoc]

theorem wfFrom_mono {lo lo' : Nat} (h : lo' ≤ lo) : ∀ {m : Memory}, wfFrom lo m = true → wfFrom lo' m = true
  | [], _ => rfl
  | (_, _) :: _, hm => by
    rw [wfFrom_cons] at hm ⊢
    exact ⟨h.trans hm.1, hm.2⟩

/-- An address below every listed one reads blank. -/
theorem read_below {a : Nat} : ∀ {lo : Nat} {m : Memory}, wfFrom lo m = true → a < lo → read m a = blank
  | _, [], _, _ => rfl
  | _, (b, w) :: m, hm, ha => by
    rw [wfFrom_cons] at hm
    have hb : ¬ b = a := by omega
    simp only [read, hb, if_false]
    exact read_below hm.2.2.2 (by omega)

/-- A write keeps the canonical form. -/
theorem write_wfFrom {a : Nat} {v : Byte} (ha : a < 256) :
    ∀ {lo : Nat} {m : Memory}, lo ≤ a → wfFrom lo m = true → wfFrom lo (write m a v) = true
  | _, [], hlo, _ => by
    by_cases hv : v = blank
    · simp [write, hv, wfFrom]
    · simp [write, hv, wfFrom, hlo, ha]
  | _, (b, w) :: m, hlo, hm => by
    have hb := wfFrom_cons.mp hm
    unfold write
    split
    · split
      · exact hm
      · rw [wfFrom_cons, wfFrom_cons]
        exact ⟨hlo, ha, ‹_›, by omega, hb.2⟩
    · split
      · split
        · exact wfFrom_mono (by omega) hb.2.2.2
        · rw [wfFrom_cons]
          exact ⟨hlo, ha, ‹_›, by subst_vars; exact hb.2.2.2⟩
      · rw [wfFrom_cons]
        exact ⟨hb.1, hb.2.1, hb.2.2.1, write_wfFrom ha (by omega) hb.2.2.2⟩

theorem write_wf {m : Memory} {a : Nat} {v : Byte} (hm : m.wf = true) (ha : a < 256) : (m.write a v).wf = true :=
  write_wfFrom ha (Nat.zero_le a) hm

/-- A read at the address written gives the value written. -/
theorem read_write_same {a : Nat} {v : Byte} : ∀ {lo : Nat} {m : Memory}, wfFrom lo m = true → read (write m a v) a = v
  | _, [], _ => by
    by_cases hv : v = blank <;> simp [write, hv, read]
  | _, (b, w) :: m, hm => by
    have hb := wfFrom_cons.mp hm
    unfold write
    split
    · split
      · next hv => rw [hv]; exact read_below (wfFrom_cons.mpr ⟨le_rfl, hb.2⟩) ‹_›
      · simp [read]
    · split
      · split
        · next hv => rw [hv]; exact read_below hb.2.2.2 (by omega)
        · simp [read]
      · next hne =>
        have hba : ¬ b = a := fun h => hne h.symm
        simp only [read, hba, if_false]
        exact read_write_same hb.2.2.2

/-- A write leaves every other address alone. -/
theorem read_write_other {a b : Nat} {v : Byte} (h : b ≠ a) : ∀ (m : Memory), read (write m a v) b = read m b
  | [] => by
    by_cases hv : v = blank <;> simp [write, hv, read, Ne.symm h]
  | (c, w) :: m => by
    unfold write
    split
    · split
      · rfl
      · simp [read, Ne.symm h]
    · split
      · next hac =>
        have hcb : ¬ c = b := by omega
        split <;> simp [read, hcb, Ne.symm h]
      · by_cases hcb : c = b <;> simp [read, hcb, read_write_other h m]

/-- Canonical memories that read the same are the same data. -/
theorem ext_of_read : ∀ {lo : Nat} {m m' : Memory}, wfFrom lo m = true → wfFrom lo m' = true →
    (∀ a, read m a = read m' a) → m = m'
  | _, [], [], _, _, _ => rfl
  | _, [], (b, w) :: m', _, h', hr => by
    have hb := wfFrom_cons.mp h'
    exact absurd (by simpa [read] using (hr b).symm) hb.2.2.1
  | _, (b, w) :: m, [], h, _, hr => by
    have hb := wfFrom_cons.mp h
    exact absurd (by simpa [read] using hr b) hb.2.2.1
  | _, (b, w) :: m, (c, x) :: m', h, h', hr => by
    have hb := wfFrom_cons.mp h
    have hc := wfFrom_cons.mp h'
    rcases lt_trichotomy b c with hlt | rfl | hlt
    · have h1 : read ((b, w) :: m) b = w := by simp [read]
      have h2 : read ((c, x) :: m') b = blank := read_below (wfFrom_cons.mpr ⟨le_rfl, hc.2⟩) hlt
      exact absurd (h1.symm.trans ((hr b).trans h2)) hb.2.2.1
    · have hw : w = x := by simpa [read] using hr b
      have hm : m = m' := by
        refine ext_of_read hb.2.2.2 hc.2.2.2 fun a => ?_
        by_cases hab : b = a
        · subst hab
          rw [read_below hb.2.2.2 (Nat.lt_succ_self b), read_below hc.2.2.2 (Nat.lt_succ_self b)]
        · simpa [read, hab] using hr a
      rw [hw, hm]
    · have h1 : read ((c, x) :: m') c = x := by simp [read]
      have h2 : read ((b, w) :: m) c = blank := read_below (wfFrom_cons.mpr ⟨le_rfl, hb.2⟩) hlt
      exact absurd (h1.symm.trans ((hr c).symm.trans h2)) hc.2.2.1

/-- The memory made of any cells is canonical. -/
theorem ofCells_wf (cells : List Host.Cell) : (ofCells cells).wf = true := by
  have step : ∀ (cells : List Host.Cell) (m : Memory), m.wf = true →
      (cells.foldl (fun m c => if c.1 < 256 then write m c.1 c.2 else m) m).wf = true := by
    intro cells
    induction cells with
    | nil => exact fun m h => h
    | cons c cells ih =>
      intro m h
      by_cases hc : c.1 < 256
      · simpa [hc] using ih _ (write_wf h hc)
      · simpa [hc] using ih _ h
  exact step cells [] rfl

end Sys2Proof.Machine.Memory

namespace Sys2Proof.Machine

theorem reset_mem_wf : State.reset.mem.wf = true := rfl

theorem construct_mem_wf (k : Config) : (State.construct k).mem.wf = true := Memory.ofCells_wf k.memInit

end Sys2Proof.Machine
end

