-- ==== Sys2Proof/Laws/Ops.lean ====
section
/-! SUPPORT. What each shared operation over registers and memory can do (Machine/Ops.lean, Operands.lean, Flags.lean). -/

namespace Sys2Proof.Machine

@[simp] theorem andThen_next (s : State) (f : State → Result) : andThen (.next s) f = f s := rfl
@[simp] theorem andThen_fault (e : Fault) (f : State → Result) : andThen (.fault e) f = .fault e := rfl
@[simp] theorem andThen_refused (e : Refusal) (f : State → Result) : andThen (.refused e) f = .refused e := rfl

/-- A sequence answers a next state exactly when both its parts do. -/
theorem andThen_eq_next {r : Result} {f : State → Result} {t : State} :
    andThen r f = .next t ↔ ∃ s, r = .next s ∧ f s = .next t := by
  cases r <;> simp

/-! The ring's shift (R280). -/

@[simp] theorem Ring.next_none : Ring.none.next = .none := rfl
@[simp] theorem Ring.next_p1 : Ring.p1.next = .p2 := rfl
@[simp] theorem Ring.next_p2 : Ring.p2.next = .p3 := rfl
@[simp] theorem Ring.next_p3 : Ring.p3.next = .p1 := rfl

theorem Ring.next_eq_none {r : Ring} : r.next = .none ↔ r = .none := by cases r <;> decide
theorem Ring.next_eq_p1 {r : Ring} : r.next = .p1 ↔ r = .p3 := by cases r <;> decide
theorem Ring.next_eq_p2 {r : Ring} : r.next = .p2 ↔ r = .p1 := by cases r <;> decide
theorem Ring.next_eq_p3 {r : Ring} : r.next = .p3 ↔ r = .p2 := by cases r <;> decide

namespace State

@[simp] theorem cpuWrite_acc (s : State) (a v : Byte) : (s.cpuWrite a v).acc = s.acc := by unfold cpuWrite; split <;> rfl
@[simp] theorem cpuWrite_pc (s : State) (a v : Byte) : (s.cpuWrite a v).pc = s.pc := by unfold cpuWrite; split <;> rfl
@[simp] theorem cpuWrite_cr (s : State) (a v : Byte) : (s.cpuWrite a v).cr = s.cr := by unfold cpuWrite; split <;> rfl
@[simp] theorem cpuWrite_ar (s : State) (a v : Byte) : (s.cpuWrite a v).ar = s.ar := by unfold cpuWrite; split <;> rfl
@[simp] theorem cpuWrite_z (s : State) (a v : Byte) : (s.cpuWrite a v).z = s.z := by unfold cpuWrite; split <;> rfl
@[simp] theorem cpuWrite_c (s : State) (a v : Byte) : (s.cpuWrite a v).c = s.c := by unfold cpuWrite; split <;> rfl
@[simp] theorem cpuWrite_ring (s : State) (a v : Byte) : (s.cpuWrite a v).ring = s.ring := by unfold cpuWrite; split <;> rfl
@[simp] theorem cpuWrite_takeover (s : State) (a v : Byte) : (s.cpuWrite a v).takeover = s.takeover := by unfold cpuWrite; split <;> rfl
@[simp] theorem cpuWrite_ovAddr (s : State) (a v : Byte) : (s.cpuWrite a v).ovAddr = s.ovAddr := by unfold cpuWrite; split <;> rfl
@[simp] theorem cpuWrite_ovData (s : State) (a v : Byte) : (s.cpuWrite a v).ovData = s.ovData := by unfold cpuWrite; split <;> rfl
@[simp] theorem cpuWrite_ovWrite (s : State) (a v : Byte) : (s.cpuWrite a v).ovWrite = s.ovWrite := by unfold cpuWrite; split <;> rfl
@[simp] theorem cpuWrite_resetLine (s : State) (a v : Byte) : (s.cpuWrite a v).resetLine = s.resetLine := by unfold cpuWrite; split <;> rfl
@[simp] theorem cpuWrite_engine (s : State) (a v : Byte) : (s.cpuWrite a v).engine = s.engine := by unfold cpuWrite; split <;> rfl
@[simp] theorem cpuWrite_cfg (s : State) (a v : Byte) : (s.cpuWrite a v).cfg = s.cfg := by unfold cpuWrite; split <;> rfl

theorem cpuWrite_takeover_true {s : State} (h : s.takeover = true) (a v : Byte) : s.cpuWrite a v = s := by simp [cpuWrite, h]
theorem cpuWrite_takeover_false {s : State} (h : s.takeover = false) (a v : Byte) : s.cpuWrite a v = s.memWrite a v := by
  simp [cpuWrite, h]
theorem cpuRead_takeover_true {s : State} (h : s.takeover = true) (a : Byte) : s.cpuRead a = s.memRead s.ovAddr := by
  simp [cpuRead, h]
theorem cpuRead_takeover_false {s : State} (h : s.takeover = false) (a : Byte) : s.cpuRead a = s.memRead a := by
  simp [cpuRead, h]

/-- A read depends on memory alone. -/
theorem memRead_congr {s t : State} (h : t.mem = s.mem) (a : Byte) : t.memRead a = s.memRead a := by simp [memRead, h]

/-- A CPU read depends on memory, takeover and OV.addr alone. -/
theorem cpuRead_congr {s t : State} (hm : t.mem = s.mem) (ht : t.takeover = s.takeover) (ho : t.ovAddr = s.ovAddr) (a : Byte) :
    t.cpuRead a = s.cpuRead a := by simp [cpuRead, memRead, hm, ht, ho]

/-- R63: the address written reads the value written. -/
theorem memRead_memWrite_same {s : State} (h : s.mem.wf = true) (a v : Byte) : (s.memWrite a v).memRead a = v :=
  Memory.read_write_same h

/-- R63: every other address is unchanged. -/
theorem memRead_memWrite_other (s : State) {a b : Byte} (v : Byte) (h : b ≠ a) : (s.memWrite a v).memRead b = s.memRead b :=
  Memory.read_write_other (fun hn => h (BitVec.eq_of_toNat_eq hn)) s.mem

theorem memWrite_wf {s : State} (h : s.mem.wf = true) (a v : Byte) : (s.memWrite a v).mem.wf = true :=
  Memory.write_wf h a.isLt

theorem cpuWrite_wf {s : State} (h : s.mem.wf = true) (a v : Byte) : (s.cpuWrite a v).mem.wf = true := by
  unfold cpuWrite
  split
  · exact h
  · exact memWrite_wf h a v

theorem memRead_cpuWrite_other (s : State) {a b : Byte} (v : Byte) (h : b ≠ a) : (s.cpuWrite a v).memRead b = s.memRead b := by
  unfold cpuWrite
  split
  · rfl
  · exact memRead_memWrite_other s v h

end State

/-- The one's complement of a byte is 255 minus it (R180). -/
theorem invertIf_true_toNat (m : Byte) : (invertIf true m).toNat = 255 - m.toNat := by
  simp [invertIf, BitVec.toNat_not]

@[simp] theorem invertIf_false (m : Byte) : invertIf false m = m := rfl

theorem arithSum_toNat (t : Nat) : (arithSum t).toNat = t % 256 := by simp [arithSum]

theorem carryOut_eq_true {t : Nat} : carryOut t = true ↔ 256 ≤ t := by simp [carryOut]

theorem zeroFlag_eq_true {v : Byte} : zeroFlag v = true ↔ v.toNat = 0 := by
  simp [zeroFlag, BitVec.toNat_eq]

/-- What the optional write-back can do: nothing, or one CPU write (R318). -/
theorem writeback_cases (s : State) (a v : Byte) :
    (s.cfg.arithWriteback = false ∧ writeback s a v = s) ∨
      (s.cfg.arithWriteback = true ∧ writeback s a v = s.cpuWrite (effectiveAddress a) v) := by
  unfold writeback
  cases s.cfg.arithWriteback <;> simp

@[simp] theorem writeback_acc (s : State) (a v : Byte) : (writeback s a v).acc = s.acc := by unfold writeback; split <;> simp
@[simp] theorem writeback_pc (s : State) (a v : Byte) : (writeback s a v).pc = s.pc := by unfold writeback; split <;> simp
@[simp] theorem writeback_cr (s : State) (a v : Byte) : (writeback s a v).cr = s.cr := by unfold writeback; split <;> simp
@[simp] theorem writeback_ar (s : State) (a v : Byte) : (writeback s a v).ar = s.ar := by unfold writeback; split <;> simp
@[simp] theorem writeback_z (s : State) (a v : Byte) : (writeback s a v).z = s.z := by unfold writeback; split <;> simp
@[simp] theorem writeback_c (s : State) (a v : Byte) : (writeback s a v).c = s.c := by unfold writeback; split <;> simp
@[simp] theorem writeback_ring (s : State) (a v : Byte) : (writeback s a v).ring = s.ring := by unfold writeback; split <;> simp
@[simp] theorem writeback_takeover (s : State) (a v : Byte) : (writeback s a v).takeover = s.takeover := by unfold writeback; split <;> simp
@[simp] theorem writeback_ovAddr (s : State) (a v : Byte) : (writeback s a v).ovAddr = s.ovAddr := by unfold writeback; split <;> simp
@[simp] theorem writeback_ovData (s : State) (a v : Byte) : (writeback s a v).ovData = s.ovData := by unfold writeback; split <;> simp
@[simp] theorem writeback_ovWrite (s : State) (a v : Byte) : (writeback s a v).ovWrite = s.ovWrite := by unfold writeback; split <;> simp
@[simp] theorem writeback_resetLine (s : State) (a v : Byte) : (writeback s a v).resetLine = s.resetLine := by unfold writeback; split <;> simp
@[simp] theorem writeback_engine (s : State) (a v : Byte) : (writeback s a v).engine = s.engine := by unfold writeback; split <;> simp
@[simp] theorem writeback_cfg (s : State) (a v : Byte) : (writeback s a v).cfg = s.cfg := by unfold writeback; split <;> simp

section arith
variable (op : ArithOp) (a : Byte) (s : State)

@[simp] theorem arithP3_pc : (arithP3 op a s).pc = s.pc := by simp [arithP3]
@[simp] theorem arithP3_cr : (arithP3 op a s).cr = s.cr := by simp [arithP3]
@[simp] theorem arithP3_ar : (arithP3 op a s).ar = s.ar := by simp [arithP3]
@[simp] theorem arithP3_ring : (arithP3 op a s).ring = s.ring := by simp [arithP3]
@[simp] theorem arithP3_takeover : (arithP3 op a s).takeover = s.takeover := by simp [arithP3]
@[simp] theorem arithP3_ovAddr : (arithP3 op a s).ovAddr = s.ovAddr := by simp [arithP3]
@[simp] theorem arithP3_ovData : (arithP3 op a s).ovData = s.ovData := by simp [arithP3]
@[simp] theorem arithP3_ovWrite : (arithP3 op a s).ovWrite = s.ovWrite := by simp [arithP3]
@[simp] theorem arithP3_resetLine : (arithP3 op a s).resetLine = s.resetLine := by simp [arithP3]
@[simp] theorem arithP3_engine : (arithP3 op a s).engine = s.engine := by simp [arithP3]
@[simp] theorem arithP3_cfg : (arithP3 op a s).cfg = s.cfg := by simp [arithP3]

theorem arithP3_acc : (arithP3 op a s).acc = arithSum (arithTotal s.cfg.borrowPolarity op s.acc (memOperand s a) s.c) := by simp [arithP3]
theorem arithP3_z : (arithP3 op a s).z = zeroFlag (arithSum (arithTotal s.cfg.borrowPolarity op s.acc (memOperand s a) s.c)) := by simp [arithP3]
theorem arithP3_c : (arithP3 op a s).c =
    carryFlag s.cfg.borrowPolarity op (carryOut (arithTotal s.cfg.borrowPolarity op s.acc (memOperand s a) s.c)) := by simp [arithP3]

/-- With P_ARITH_WRITEBACK false, arithmetic leaves memory alone. -/
theorem arithP3_mem (h : s.cfg.arithWriteback = false) : (arithP3 op a s).mem = s.mem := by
  simp [arithP3, writeback, h]

theorem arithP3_wf (h : s.mem.wf = true) : (arithP3 op a s).mem.wf = true := by
  unfold arithP3
  rcases writeback_cases _ a _ with ⟨_, hw⟩ | ⟨_, hw⟩
  · rw [hw]; exact h
  · rw [hw]
    refine State.cpuWrite_wf ?_ _ _
    exact h

end arith

/-- What a jump's third phase can do: set PC, or nothing (R330). -/
theorem jumpP3_cases (k : JumpCond) (a : Byte) (s : State) :
    (k.holds s.z s.c = true ∧ jumpP3 k a s = s.setPc (effectiveAddress a)) ∨ (k.holds s.z s.c = false ∧ jumpP3 k a s = s) := by
  unfold jumpP3
  cases k.holds s.z s.c <;> simp

@[simp] theorem jumpP3_mem (k : JumpCond) (a : Byte) (s : State) : (jumpP3 k a s).mem = s.mem := by unfold jumpP3; split <;> rfl
@[simp] theorem jumpP3_acc (k : JumpCond) (a : Byte) (s : State) : (jumpP3 k a s).acc = s.acc := by unfold jumpP3; split <;> rfl
@[simp] theorem jumpP3_cr (k : JumpCond) (a : Byte) (s : State) : (jumpP3 k a s).cr = s.cr := by unfold jumpP3; split <;> rfl
@[simp] theorem jumpP3_ar (k : JumpCond) (a : Byte) (s : State) : (jumpP3 k a s).ar = s.ar := by unfold jumpP3; split <;> rfl
@[simp] theorem jumpP3_z (k : JumpCond) (a : Byte) (s : State) : (jumpP3 k a s).z = s.z := by unfold jumpP3; split <;> rfl
@[simp] theorem jumpP3_c (k : JumpCond) (a : Byte) (s : State) : (jumpP3 k a s).c = s.c := by unfold jumpP3; split <;> rfl
@[simp] theorem jumpP3_ring (k : JumpCond) (a : Byte) (s : State) : (jumpP3 k a s).ring = s.ring := by unfold jumpP3; split <;> rfl
@[simp] theorem jumpP3_takeover (k : JumpCond) (a : Byte) (s : State) : (jumpP3 k a s).takeover = s.takeover := by unfold jumpP3; split <;> rfl
@[simp] theorem jumpP3_ovAddr (k : JumpCond) (a : Byte) (s : State) : (jumpP3 k a s).ovAddr = s.ovAddr := by unfold jumpP3; split <;> rfl
@[simp] theorem jumpP3_ovData (k : JumpCond) (a : Byte) (s : State) : (jumpP3 k a s).ovData = s.ovData := by unfold jumpP3; split <;> rfl
@[simp] theorem jumpP3_ovWrite (k : JumpCond) (a : Byte) (s : State) : (jumpP3 k a s).ovWrite = s.ovWrite := by unfold jumpP3; split <;> rfl
@[simp] theorem jumpP3_resetLine (k : JumpCond) (a : Byte) (s : State) : (jumpP3 k a s).resetLine = s.resetLine := by unfold jumpP3; split <;> rfl
@[simp] theorem jumpP3_engine (k : JumpCond) (a : Byte) (s : State) : (jumpP3 k a s).engine = s.engine := by unfold jumpP3; split <;> rfl
@[simp] theorem jumpP3_cfg (k : JumpCond) (a : Byte) (s : State) : (jumpP3 k a s).cfg = s.cfg := by unfold jumpP3; split <;> rfl

end Sys2Proof.Machine
end

