-- ==== Sys2Proof/Laws/Console.lean ====
section
/-! SUPPORT. Buses, and what each console line does while OV.write is low (Machine/Bus.lean, Machine/Console.lean). -/

namespace Sys2Proof.Machine

/-- The value of the `w` low bits of `v` (R11). -/
theorem busValue_bitsOf : ∀ w v, busValue (bitsOf w v) = v % 2 ^ w
  | 0, v => by simp [bitsOf, busValue, Nat.mod_one]
  | w + 1, v => by
    simp only [bitsOf, busValue, busValue_bitsOf w]
    rw [Nat.pow_succ, Nat.mul_comm (2 ^ w) 2, Nat.mod_mul]
    have : (v % 2 == 1).toNat = v % 2 := by rcases Nat.mod_two_eq_zero_or_one v with h | h <;> simp [h]
    omega

@[simp] theorem bitsOf_length : ∀ w v, (bitsOf w v).length = w
  | 0, _ => rfl
  | w + 1, v => by simp [bitsOf, bitsOf_length]

/-- A bus of `n` bits has a value below 2^n (R11). -/
theorem busValue_lt : ∀ xs : List Bool, busValue xs < 2 ^ xs.length
  | [] => by simp [busValue]
  | x :: xs => by
    have := busValue_lt xs
    simp only [busValue, List.length_cons, pow_succ]
    cases x <;> simp <;> omega

/-- ToBus on the console's 8-bit buses: the byte for an integer that fits (R70). -/
theorem toByteBus_fits (n : Nat) (h : n < 256) : toByteBus (n : Int) = some (BitVec.ofNat 8 n) := by
  have : fitsBus (n : Int) 8 = true := by simp [fitsBus]; omega
  simp [toByteBus, this, BitVec.ofInt_natCast]

theorem toByteBus_byte (b : Byte) : toByteBus (b.toNat : Int) = some b := by rw [toByteBus_fits _ b.isLt]; simp

/-- ToBus rejects every other integer (R70). -/
theorem toByteBus_rejects (n : Int) (h : n < 0 ∨ 256 ≤ n) : toByteBus n = none := by
  have : fitsBus n 8 = false := by simp [fitsBus]; omega
  simp [toByteBus, this]

theorem driveTakeover_low (b : Bool) (s : State) (h : s.ovWrite = false) : driveTakeover b s = s.setTakeoverLine b := by
  simp [driveTakeover, h, State.track, State.effWrite]

theorem driveAddr_low (v : Byte) (s : State) (h : s.ovWrite = false) : driveAddr v s = s.setOvAddr v := by
  simp [driveAddr, h, State.track, State.effWrite]

theorem driveData_low (v : Byte) (s : State) (h : s.ovWrite = false) : driveData v s = s.setOvData v := by
  simp [driveData, h, State.track, State.effWrite]

/-- The write pulse of R68 with takeover asserted stores OV.data at OV.addr, and leaves the write line low. -/
theorem pulseWrite_takeover (s : State) (h : s.ovWrite = false) (ht : s.takeover = true) :
    pulseWrite s = s.memWrite s.ovAddr s.ovData := by
  simp [pulseWrite, driveWrite, State.track, State.effWrite, ht, State.memWrite]
  cases s
  simp_all [State.setMem, State.setOvWrite]

/-- One byte of ConsoleLoad (R68). -/
theorem consoleLoadFrom_byte (a b : Byte) (rest : List Int) (s : State) (h : s.ovWrite = false) (ht : s.takeover = true) :
    consoleLoadFrom a.toNat ((b.toNat : Int) :: rest) s =
      consoleLoadFrom (a.toNat + 1) rest (((s.setOvAddr a).setOvData b).memWrite a b) := by
  simp only [consoleLoadFrom, toByteBus_byte]
  rw [driveAddr_low _ _ h, driveData_low _ _ (by simpa using h), pulseWrite_takeover _ (by simpa using h) (by simpa using ht)]
  rfl

end Sys2Proof.Machine
end

