-- ==== Sys2Proof/Laws/Cycle.lean ====
section
/-! SUPPORT. What the decoder, the phases and the step can do (Decode.lean, Machine/Cycle.lean). -/

namespace Sys2Proof

@[simp] theorem decodePair_lod (x : Byte) : decodePair 0x10#8 x = .ok (.lod x) := rfl
@[simp] theorem decodePair_sto (x : Byte) : decodePair 0x11#8 x = .ok (.sto x) := rfl
@[simp] theorem decodePair_add (x : Byte) : decodePair 0x20#8 x = .ok (.add x) := rfl
@[simp] theorem decodePair_sub (x : Byte) : decodePair 0x21#8 x = .ok (.sub x) := rfl
@[simp] theorem decodePair_adc (x : Byte) : decodePair 0x22#8 x = .ok (.adc x) := rfl
@[simp] theorem decodePair_sbb (x : Byte) : decodePair 0x23#8 x = .ok (.sbb x) := rfl
@[simp] theorem decodePair_jmp (x : Byte) : decodePair 0x30#8 x = .ok (.jmp x) := rfl
@[simp] theorem decodePair_jiz (x : Byte) : decodePair 0x31#8 x = .ok (.jiz x) := rfl
@[simp] theorem decodePair_jic (x : Byte) : decodePair 0x32#8 x = .ok (.jic x) := rfl
@[simp] theorem decodePair_jnz (x : Byte) : decodePair 0x33#8 x = .ok (.jnz x) := rfl
@[simp] theorem decodePair_jnc (x : Byte) : decodePair 0x34#8 x = .ok (.jnc x) := rfl
@[simp] theorem decodePair_hlt (x : Byte) : decodePair 0xFF#8 x = .ok (.hlt x) := rfl

/-- The operand byte does not decide whether a pair decodes (R105). -/
theorem decodePair_error_iff (op x : Byte) (r : DecodeReject) :
    decodePair op x = .error r ↔ (∀ i : Instr, opcodeOf i ≠ op) ∧ r = .undefinedOpcode op := by
  constructor
  · intro h
    refine ⟨fun i hi => ?_, ?_⟩
    · subst hi
      cases i <;> simp [opcodeOf] at h
    · have skip : ∀ {c : Prop} [Decidable c] {i : Instr} {e : Except DecodeReject Instr},
          (if c then .ok i else e) = .error r → e = .error r := by
        intro c _ i e h
        split at h
        · exact absurd h (by simp)
        · exact h
      exact (Except.error.inj (skip (skip (skip (skip (skip (skip (skip (skip (skip (skip (skip (skip h))))))))))))).symm
  · rintro ⟨h, rfl⟩
    have h1 := h (.lod 0); have h2 := h (.sto 0); have h3 := h (.add 0); have h4 := h (.sub 0)
    have h5 := h (.adc 0); have h6 := h (.sbb 0); have h7 := h (.jmp 0); have h8 := h (.jiz 0)
    have h9 := h (.jic 0); have h10 := h (.jnz 0); have h11 := h (.jnc 0); have h12 := h (.hlt 0)
    simp only [opcodeOf] at h1 h2 h3 h4 h5 h6 h7 h8 h9 h10 h11 h12
    simp [decodePair, Ne.symm h1, Ne.symm h2, Ne.symm h3, Ne.symm h4, Ne.symm h5, Ne.symm h6, Ne.symm h7, Ne.symm h8,
      Ne.symm h9, Ne.symm h10, Ne.symm h11, Ne.symm h12]

end Sys2Proof

namespace Sys2Proof.Machine

/-- What a phase step that answers a next state did: an idle step before the first reset, or one of the three phases. -/
theorem phaseStep_cases {s t : State} (h : phaseStep s = .next t) :
    s.resetLine = false ∧
      ((s.ring = .none ∧ s.cfg.preResetClock = .idle ∧ t = s) ∨
        (s.ring = .p3 ∧ t = phase1 (s.setRing .p1)) ∨
        (s.ring = .p1 ∧ t = phase2 (s.setRing .p2)) ∨
        (s.ring = .p2 ∧ phase3 (s.setRing .p3) = .next t)) := by
  unfold phaseStep at h
  split at h
  · exact absurd h (by simp)
  · next hr =>
    refine ⟨by simpa using hr, ?_⟩
    split at h
    · next hn =>
      rw [Ring.next_eq_none] at hn
      unfold unresetStep at h
      split at h
      · exact absurd h (by simp)
      · next hi => exact .inl ⟨hn, hi, by simpa using h.symm⟩
    · next hn => exact .inr (.inl ⟨Ring.next_eq_p1.mp hn, by simpa using h.symm⟩)
    · next hn => exact .inr (.inr (.inl ⟨Ring.next_eq_p2.mp hn, by simpa using h.symm⟩))
    · next hn => exact .inr (.inr (.inr ⟨Ring.next_eq_p3.mp hn, h⟩))

/-- The state that P1 and P2 leave (R281, R282), with the ring at P3. -/
def fetched (s : State) : State :=
  { s with cr := s.cpuRead s.pc, ar := s.cpuRead (s.pc + 1#8), pc := s.pc + 2#8, ring := .p3 }

/-- From an instruction boundary with reset released, a step is the third phase on the fetched state (R284). -/
theorem step_of_boundary {s : State} (hr : s.ring = .p3) (hl : s.resetLine = false) : step s = phase3 (fetched s) := by
  have h1 : phaseStep s = .next (phase1 (s.setRing .p1)) := by simp [phaseStep, hr, hl]
  have h2 : phaseStep (phase1 (s.setRing .p1)) = .next (phase2 ((phase1 (s.setRing .p1)).setRing .p2)) := by
    simp [phaseStep, phase1, hl]
  have h3 : phaseStep (phase2 ((phase1 (s.setRing .p1)).setRing .p2)) =
      phase3 ((phase2 ((phase1 (s.setRing .p1)).setRing .p2)).setRing .p3) := by
    simp [phaseStep, phase2, phase1, hl]
  have hpc : s.pc + 1#8 + 1#8 = s.pc + 2#8 := by rw [BitVec.add_assoc]; rfl
  have h4 : (phase2 ((phase1 (s.setRing .p1)).setRing .p2)).setRing .p3 = fetched s := by
    have h5 : (phase2 ((phase1 (s.setRing .p1)).setRing .p2)).setRing .p3 =
        { s with cr := s.cpuRead s.pc, ar := s.cpuRead (s.pc + 1#8), pc := s.pc + 1#8 + 1#8, ring := .p3 } := rfl
    rw [h5, hpc]
    rfl
  simp [step, instructionStep, hr, h1, h2, h3, h4]

/-- The third phase on a pair that decodes is the instruction's own action. -/
theorem phase3_of_decode {s : State} {i : Instr} (h : decodePair s.cr s.ar = .ok i) : phase3 s = exec i s := by
  simp [phase3, h]

/-- The third phase on an undefined opcode is the no-op (R337). -/
theorem phase3_of_reject {s : State} {r : DecodeReject} (h : decodePair s.cr s.ar = .error r) : phase3 s = .next s := by
  simp [phase3, h, execUndefined]

end Sys2Proof.Machine
end

