-- ==== Sys2Proof/Laws/Engine.lean ====
section
/-! SUPPORT. What each operation of the signal engine can do (Machine/Engine.lean; spec/40_signal_engine.md). -/

namespace Sys2Proof.Machine.Engine

/-! ### The log entry of a write (R144) touches the log and its counter alone. -/

@[simp] theorem logAppend_nodes (n : Nat) (e : Engine) : (logAppend n e).nodes = e.nodes := by
  unfold logAppend; split <;> (try split) <;> rfl
@[simp] theorem logAppend_queue (n : Nat) (e : Engine) : (logAppend n e).queue = e.queue := by
  unfold logAppend; split <;> (try split) <;> rfl
@[simp] theorem logAppend_draining (n : Nat) (e : Engine) : (logAppend n e).draining = e.draining := by
  unfold logAppend; split <;> (try split) <;> rfl
@[simp] theorem logAppend_seen (n : Nat) (e : Engine) : (logAppend n e).seen = e.seen := by
  unfold logAppend; split <;> (try split) <;> rfl
@[simp] theorem logAppend_stopReq (n : Nat) (e : Engine) : (logAppend n e).stopReq = e.stopReq := by
  unfold logAppend; split <;> (try split) <;> rfl
@[simp] theorem logAppend_draws (n : Nat) (e : Engine) : (logAppend n e).draws = e.draws := by
  unfold logAppend; split <;> (try split) <;> rfl

/-- The log entry does not depend on the queue. -/
theorem logAppend_setQueue (n : Nat) (e : Engine) (q : List Pending) :
    logAppend n { e with queue := q } = { logAppend n e with queue := q } := by
  unfold logAppend
  cases e.nodes[n]? with
  | none => rfl
  | some d => rcases d with ⟨_, _, _ | _, _⟩ <;> rfl

/-! ### Reading. -/

/-- Reads depend on the nodes alone. -/
theorem read_congr {e e' : Engine} (h : e'.nodes = e.nodes) (n : Nat) : e'.read n = e.read n := by simp [read, h]
theorem readSig_congr {e e' : Engine} (h : e'.nodes = e.nodes) (x : Sig) : e'.readSig x = e.readSig x := by
  cases x
  · rfl
  · exact read_congr h _
theorem subsOf_congr {e e' : Engine} (h : e'.nodes = e.nodes) (n : Nat) : e'.subsOf n = e.subsOf n := by simp [subsOf, h]

theorem read_of_node {e : Engine} {n : Nat} {d : Node} (h : e.nodes[n]? = some d) : e.read n = d.value := by simp [read, h]
theorem subsOf_of_node {e : Engine} {n : Nat} {d : Node} (h : e.nodes[n]? = some d) : e.subsOf n = d.subs := by
  simp [subsOf, h]

/-! ### Posting (the part of Write before the drain, R133). -/

/-- What a post that succeeds did: nothing, for a value already held; else the node holds the value and its subscribers stand at the
queue's tail. -/
theorem post_cases {n : Nat} {b : Bool} {e e' : Engine} (h : post n b e = .ok e') :
    n < e.nodes.length ∧
      ((e.read n = b ∧ e' = e) ∨
        (e.read n ≠ b ∧ e'.queue = e.queue ++ (e.subsOf n).map (fun cb => ⟨cb, b, n⟩) ∧
          (∀ m, e'.read m = if m = n then b else e.read m) ∧ (∀ m, e'.subsOf m = e.subsOf m) ∧
          e'.nodes.length = e.nodes.length ∧ e'.draining = e.draining)) := by
  unfold post at h
  split at h
  · exact absurd h (by simp)
  · next d hd =>
    obtain ⟨hn, _⟩ := List.getElem?_eq_some_iff.mp hd
    refine ⟨hn, ?_⟩
    split at h
    · next hv => exact .inl ⟨by simp [read_of_node hd, hv], by simpa using h.symm⟩
    · next hv =>
      have he := Except.ok.inj h
      have hnodes : e'.nodes = e.nodes.set n { d with value := b } := by rw [← he]; simp
      have hself : e'.nodes[n]? = some { d with value := b } := by rw [hnodes, List.getElem?_set_self hn]
      have hother : ∀ m, m ≠ n → e'.nodes[m]? = e.nodes[m]? := fun m hm => by rw [hnodes, List.getElem?_set_ne (Ne.symm hm)]
      refine .inr ⟨by simp [read_of_node hd, hv], by rw [← he, subsOf_of_node hd]; simp, fun m => ?_, fun m => ?_,
        by rw [hnodes, List.length_set], by rw [← he]; simp⟩
      · by_cases hm : m = n
        · subst hm; simp [read_of_node hself]
        · simp [read, hm, hother m hm]
      · by_cases hm : m = n
        · subst hm; rw [subsOf_of_node hself, subsOf_of_node hd]
        · simp [subsOf, hother m hm]

/-- A post depends on the queue only as the list it appends to. -/
theorem post_prefix (n : Nat) (b : Bool) (e : Engine) (l : List Pending) :
    post n b { e with queue := l ++ e.queue } = (post n b e).map fun e' => { e' with queue := l ++ e'.queue } := by
  unfold post
  dsimp only
  cases e.nodes[n]? with
  | none => rfl
  | some d =>
    dsimp only
    split
    · rfl
    · simp only [Except.map, Except.ok.injEq]
      rw [logAppend_setQueue n { e with nodes := e.nodes.set n { d with value := b } } (l ++ e.queue)]
      simp

/-! ### Invoking a callback (R139). -/

/-- What an invocation does to the engine before its write: only what listeners record and the draw counter may change. -/
theorem act_cases {v : Env} {cb : Callback} {a : Bool} {e e' : Engine} {o : Option (Nat × Bool)}
    (h : act v cb a e = .ok (e', o)) :
    e'.nodes = e.nodes ∧ e'.queue = e.queue ∧ e'.draining = e.draining := by
  have fst : ∀ {r : Engine × Option (Nat × Bool)}, Except.ok (ε := Stop) r = .ok (e', o) → e' = r.1 :=
    fun h => (congrArg Prod.fst (Except.ok.inj h)).symm
  cases cb with
  | listener id la =>
    cases la <;> simp only [act, listen, reduceCtorEq] at h <;> (rw [fst h]; exact ⟨rfl, rfl, rfl⟩)
  | sr q r s =>
    simp only [act] at h
    split at h <;> (rw [fst h]; exact ⟨rfl, rfl, rfl⟩)
  | _ => simp only [act] at h; rw [fst h]; exact ⟨rfl, rfl, rfl⟩

/-- An invocation does not depend on the queue. -/
theorem act_prefix (v : Env) (cb : Callback) (a : Bool) (e : Engine) (l : List Pending) :
    act v cb a { e with queue := l ++ e.queue } =
      (act v cb a e).map fun r => ({ r.1 with queue := l ++ r.1.queue }, r.2) := by
  cases cb with
  | sr q r s =>
    simp only [act, readSig_congr (e := e) (e' := { e with queue := l ++ e.queue }) rfl]
    split <;> rfl
  | listener id la => cases la <;> rfl
  | _ => rfl

/-- What a delivery that succeeds did: an invocation, and at most one post (R134). -/
theorem deliver_cases {v : Env} {p : Pending} {e e' : Engine} (h : deliver v p e = .ok e') :
    ∃ m o, act v p.cb (argOf v p e) e = .ok (m, o) ∧ (o = none ∧ e' = m ∨ ∃ n b, o = some (n, b) ∧ post n b m = .ok e') := by
  unfold deliver at h
  split at h
  · exact absurd h (by simp)
  · next m hm => exact ⟨m, none, hm, .inl ⟨rfl, (Except.ok.inj h).symm⟩⟩
  · next m n b hm => exact ⟨m, some (n, b), hm, .inr ⟨n, b, rfl, h⟩⟩

/-- A delivery depends on the queue only as the list it appends to. -/
theorem deliver_prefix (v : Env) (p : Pending) (e : Engine) (l : List Pending) :
    deliver v p { e with queue := l ++ e.queue } = (deliver v p e).map fun e' => { e' with queue := l ++ e'.queue } := by
  have harg : argOf v p { e with queue := l ++ e.queue } = argOf v p e := by unfold argOf; split <;> rfl
  unfold deliver
  rw [harg, act_prefix]
  cases act v p.cb (argOf v p e) e with
  | error s => rfl
  | ok r =>
    obtain ⟨m, _ | ⟨n, b⟩⟩ := r
    · rfl
    · exact post_prefix n b m l

/-! ### The drain (R133, R145) and Write. -/

/-- A relation that every delivery of a popped entry keeps, and that holds of equal engines, holds across a drain; and the drain ends
with its queue empty. -/
theorem drain_induction {v : Env} {P : Engine → Prop}
    (hP : ∀ (e e' : Engine) (p : Pending) (rest : List Pending), P e → e.queue = p :: rest →
      deliver v p { e with queue := rest } = .ok e' → P e') :
    ∀ (fuel : Nat) (e e' : Engine), P e → drain v fuel e = .ok e' → P e' ∧ e'.queue = []
  | 0, e, e', he, h => by
    unfold drain at h
    split at h
    · next hq => obtain rfl := Except.ok.inj h; exact ⟨he, by simpa using hq⟩
    · exact absurd h (by simp)
  | n + 1, e, e', he, h => by
    unfold drain at h
    split at h
    · next hq => obtain rfl := Except.ok.inj h; exact ⟨he, hq⟩
    · next p rest hq =>
      split at h
      · next m hm => exact drain_induction hP n m e' (hP e m p rest he hq hm) h
      · exact absurd h (by simp)

/-- What a Write outside a drain, on an empty queue, did: nothing for a value already held, else a post and a drain of what it posted. -/
theorem write_cases {v : Env} {n : Nat} {b : Bool} {e e' : Engine} (hi : e.idle = true) (h : write v n b e = .ok e') :
    n < e.nodes.length ∧
      ((e.read n = b ∧ e' = e) ∨
        (e.read n ≠ b ∧ ∃ m, post n b e = .ok m ∧
          ((m.queue = [] ∧ e' = m) ∨ ∃ d, drain v v.fuel { m with draining := true } = .ok d ∧ e' = { d with draining := false }))) := by
  unfold write at h
  split at h
  · exact absurd h (by simp)
  · next d hd =>
    obtain ⟨hn, _⟩ := List.getElem?_eq_some_iff.mp hd
    refine ⟨hn, ?_⟩
    split at h
    · next hv => exact .inl ⟨by rw [read_of_node hd, hv], (Except.ok.inj h).symm⟩
    · next hv =>
      split at h
      · next m hm =>
        refine .inr ⟨by rw [read_of_node hd]; exact hv, m, hm, ?_⟩
        have hdr : m.draining = false := by
          have he : e.draining = false := by simp [idle] at hi; exact hi.2
          rcases (post_cases hm).2 with ⟨_, rfl⟩ | ⟨_, _, _, _, _, hd⟩
          · exact he
          · rw [hd, he]
        unfold settle at h
        split at h
        · next hq => exact .inl ⟨by simpa [hdr] using hq, (Except.ok.inj h).symm⟩
        · split at h
          · next d' hd' => exact .inr ⟨d', hd', (Except.ok.inj h).symm⟩
          · exact absurd h (by simp)
      · exact absurd h (by simp)

end Sys2Proof.Machine.Engine
end

