-- ==== Sys2Proof/Laws/Driver.lean ====
section
/-! SUPPORT. What reset, a clock toggle and a clock period can do (Machine/Driver.lean). -/

namespace Sys2Proof.Machine

/-- What asserting the reset line did, where it has a meaning (R265, R430, R433). -/
theorem assertReset_cases {s t : State} (h : assertReset s = .next t) :
    (resetAdmitted s = true ∨ s.cfg.resetMidrun = .clean) ∧ t = forceReset s := by
  unfold assertReset at h
  split at h
  · next ha => exact ⟨.inl ha, (Host.Outcome.next.inj h).symm⟩
  · split at h
    · exact absurd h (by simp)
    · next hc => exact ⟨.inr hc, (Host.Outcome.next.inj h).symm⟩

/-- What `reset()` did, where it has a meaning. -/
theorem reset_cases {s t : State} (h : reset s = .next t) :
    (resetAdmitted s = true ∨ s.cfg.resetMidrun = .clean) ∧ t = (forceReset s).setResetLine false := by
  obtain ⟨u, hu, ht⟩ := andThen_eq_next.mp h
  obtain ⟨ha, rfl⟩ := assertReset_cases hu
  exact ⟨ha, (Host.Outcome.next.inj ht).symm⟩

/-- A clock toggle changes the engine alone (R260). -/
theorem toggleClock_cases {s t : State} (h : toggleClock s = .next t) :
    ∃ e, Engine.write (Env.ofConfig s.cfg) clockNode (!s.clock) s.engine = .ok e ∧ t = s.setEngine e := by
  unfold toggleClock at h
  split at h
  · next e he => exact ⟨e, he, (Host.Outcome.next.inj h).symm⟩
  · next x _ => cases x <;> simp [Stop.toResult] at h

/-- A clock period is one phase step between two changes of the engine (R261). -/
theorem clockPhase_cases {s t : State} (h : clockPhase s = .next t) :
    ∃ e u e', phaseStep (s.setEngine e) = .next u ∧ t = u.setEngine e' := by
  obtain ⟨a, ha, h'⟩ := andThen_eq_next.mp h
  obtain ⟨u, hu, h''⟩ := andThen_eq_next.mp h'
  obtain ⟨e, _, rfl⟩ := toggleClock_cases ha
  obtain ⟨e', _, rfl⟩ := toggleClock_cases h''
  exact ⟨e, u, e', hu, rfl⟩

end Sys2Proof.Machine
end

