-- ==== Sys2Proof/Laws/Network.lean ====
section
/-! SUPPORT. What constructions keep, and what the gates of a settled network compute (Machine/Gates.lean, Safety.lean). -/

namespace Sys2Proof.Machine

namespace Engine

theorem lt_of_mem_subsOf {e : Engine} {n : Nat} {cb : Callback} (h : cb ∈ e.subsOf n) : n < e.nodes.length := by
  unfold subsOf at h
  split at h
  · next hd => exact (List.getElem?_eq_some_iff.mp hd).1
  · simp at h

/-- The wires of an engine are its gate callbacks, each at the node it is subscribed to. -/
theorem mem_wires {e : Engine} {w : Wire} : w ∈ e.wires ↔ ∃ cb ∈ e.subsOf w.src, cb.drives w.src = some (w.out, w.gate) := by
  unfold wires
  simp only [List.mem_flatMap, List.mem_range, List.mem_filterMap, Option.map_eq_some_iff]
  constructor
  · rintro ⟨n, _, cb, hcb, ⟨o, g⟩, h, rfl⟩
    exact ⟨cb, hcb, h⟩
  · rintro ⟨cb, hcb, h⟩
    exact ⟨w.src, lt_of_mem_subsOf hcb, cb, hcb, _, h, rfl⟩

/-- In a settled network every subscribed gate has its value. -/
theorem gateHolds_of_consistent {e : Engine} (h : e.consistent = true) {n o : Nat} {cb : Callback} {g : Gate}
    (hc : cb ∈ e.subsOf n) (hd : cb.drives n = some (o, g)) : e.gateHolds o g = true :=
  List.all_eq_true.mp h ⟨n, o, g⟩ (mem_wires.mpr ⟨cb, hc, hd⟩)

/-! ### No operation but Unsubscribe takes a subscription away. -/

theorem post_subsOf {n : Nat} {b : Bool} {e e' : Engine} (h : post n b e = .ok e') (m : Nat) : e'.subsOf m = e.subsOf m := by
  rcases (post_cases h).2 with ⟨_, rfl⟩ | ⟨_, _, _, h, _, _⟩
  · rfl
  · exact h m

theorem deliver_subsOf {v : Env} {p : Pending} {e e' : Engine} (h : deliver v p e = .ok e') (m : Nat) :
    e'.subsOf m = e.subsOf m := by
  obtain ⟨a, o, ha, ⟨rfl, rfl⟩ | ⟨n, b, rfl, hp⟩⟩ := deliver_cases h
  · exact subsOf_congr (act_cases ha).1 m
  · rw [post_subsOf hp, subsOf_congr (act_cases ha).1 m]

theorem settle_subsOf {v : Env} {e e' : Engine} (h : settle v e = .ok e') (m : Nat) : e'.subsOf m = e.subsOf m := by
  unfold settle at h
  split at h
  · rw [Except.ok.inj h]
  · split at h
    · next d hd =>
      obtain rfl := Except.ok.inj h
      have k := (drain_induction (P := fun x => x.subsOf m = e.subsOf m)
        (fun _ _ _ _ ha _ hb => (deliver_subsOf hb m).trans ha) _ { e with draining := true } _ rfl hd).1
      exact k
    · exact absurd h (by simp)

theorem write_subsOf {v : Env} {n : Nat} {b : Bool} {e e' : Engine} (h : write v n b e = .ok e') (m : Nat) :
    e'.subsOf m = e.subsOf m := by
  unfold write at h
  split at h
  · exact absurd h (by simp)
  · split at h
    · rw [Except.ok.inj h]
    · split at h
      · next hp => rw [settle_subsOf h, post_subsOf hp]
      · exact absurd h (by simp)

theorem invoke_subsOf {v : Env} {cb : Callback} {a : Bool} {e e' : Engine} (h : invoke v cb a e = .ok e') (m : Nat) :
    e'.subsOf m = e.subsOf m := by
  unfold invoke at h
  split at h
  · exact absurd h (by simp)
  · next ha => obtain rfl := Except.ok.inj h; exact subsOf_congr (act_cases ha).1 m
  · next ha => rw [write_subsOf h, subsOf_congr (act_cases ha).1 m]

/-- Every subscription of `e` is one of `e'`. -/
def Keeps (e e' : Engine) : Prop := ∀ n cb, cb ∈ e.subsOf n → cb ∈ e'.subsOf n

theorem Keeps.refl (e : Engine) : Keeps e e := fun _ _ h => h
theorem Keeps.trans {a b c : Engine} (h : Keeps a b) (h' : Keeps b c) : Keeps a c := fun n cb hh => h' n cb (h n cb hh)

/-- Subscribe (R136) keeps every subscription and adds its own. -/
theorem subscribe_subsOf {v : Env} {n : Nat} {cb : Callback} {e e' : Engine} (h : subscribe v n cb e = .ok e') :
    Keeps e e' ∧ cb ∈ e'.subsOf n := by
  unfold subscribe at h
  split at h
  · exact absurd h (by simp)
  · next d hd =>
    obtain ⟨hn, _⟩ := List.getElem?_eq_some_iff.mp hd
    have hreg : Keeps e (register n cb e) ∧ cb ∈ (register n cb e).subsOf n := by
      unfold register
      rw [hd]
      dsimp only
      constructor
      · intro m c hc
        by_cases hm : m = n
        · subst hm
          rw [subsOf_of_node (List.getElem?_set_self hn)]
          rw [subsOf_of_node hd] at hc
          exact List.mem_append_left _ hc
        · unfold subsOf at *
          dsimp only
          rw [List.getElem?_set_ne (Ne.symm hm)]
          exact hc
      · rw [subsOf_of_node (List.getElem?_set_self hn)]
        simp
    refine ⟨fun m c hc => ?_, ?_⟩
    · rw [invoke_subsOf h]; exact hreg.1 m c hc
    · rw [invoke_subsOf h]; exact hreg.2

/-- A later engine in the sense of `extendsTo` keeps every subscription. -/
theorem keeps_of_extendsTo {e e' : Engine} (h : e.extendsTo e' = true) : Keeps e e' := by
  intro n cb hcb
  have := List.all_eq_true.mp h n (List.mem_range.mpr (lt_of_mem_subsOf hcb))
  simpa using List.all_eq_true.mp this cb hcb

end Engine

/-! ### Constructions. -/

open Engine

theorem build_bind_ok {α β : Type} {x : Build α} {f : α → Build β} {e e' : Engine} {r : β} (h : (x >>= f) e = .ok (r, e')) :
    ∃ a m, x e = .ok (a, m) ∧ f a m = .ok (r, e') := by
  simp only [bind, StateT.bind] at h
  cases hx : x e with
  | error s => rw [hx] at h; simp [Except.bind] at h
  | ok p => rw [hx] at h; exact ⟨p.1, p.2, rfl, h⟩

theorem build_pure_ok {α : Type} {a r : α} {e e' : Engine} (h : (pure a : Build α) e = .ok (r, e')) : r = a ∧ e' = e := by
  simp only [pure, StateT.pure, Except.pure] at h
  have := Except.ok.inj h
  simp only [Prod.mk.injEq] at this
  exact ⟨this.1.symm, this.2.symm⟩

theorem build_perform_ok {f : Engine → Except Stop Engine} {e e' : Engine} {r : Unit}
    (h : Build.perform f e = .ok (r, e')) : f e = .ok e' := by
  unfold Build.perform at h
  split at h
  · next hh => rw [hh]; exact congrArg Except.ok (Prod.mk.inj (Except.ok.inj h)).2
  · exact absurd h (by simp)

/-- A construction that requires a check goes on only if the check holds, and changes nothing. -/
theorem build_require_ok {ok : Bool} {c : Refusal} {e e' : Engine} {r : Unit} (h : Build.require ok c e = .ok (r, e')) :
    ok = true ∧ e' = e := by
  unfold Build.require at h
  split at h
  · next hok => exact ⟨hok, (build_pure_ok h).2⟩
  · exact absurd h (by simp [Build.refuse])

/-- A new node keeps every subscription (R130). -/
theorem mkNode_keeps {b : Bool} {e e' : Engine} {r : Nat} (h : mkNode b e = .ok (r, e')) : Keeps e e' := by
  have := Except.ok.inj h
  simp only [newNode, Prod.mk.injEq] at this
  intro n cb hc
  rw [← this.2]
  have hn := lt_of_mem_subsOf hc
  unfold subsOf at *
  rw [List.getElem?_append_left hn]
  exact hc

/-- R170: NOT keeps every subscription, and in a later settled engine its output is the inverse of its input. -/
theorem mkNot_settled {v : Env} {x r : Sig} {e e' : Engine} (h : mkNot v x e = .ok (r, e')) :
    Keeps e e' ∧ ∀ e2, Keeps e' e2 → e2.consistent = true → e2.readSig r = !e2.readSig x := by
  cases x with
  | const b => obtain ⟨rfl, rfl⟩ := build_pure_ok h; exact ⟨Keeps.refl _, fun _ _ _ => rfl⟩
  | node n =>
    obtain ⟨o, m, h1, h⟩ := build_bind_ok h
    obtain ⟨_, m2, h2, h⟩ := build_bind_ok h
    obtain ⟨rfl, rfl⟩ := build_pure_ok h
    have hs := subscribe_subsOf (build_perform_ok h2)
    refine ⟨(mkNode_keeps h1).trans hs.1, fun e2 hm hc => ?_⟩
    simpa [gateHolds, readSig] using gateHolds_of_consistent hc (hm _ _ hs.2) rfl

/-- R140 to R142, R171: a two-input gate keeps every subscription, and in a later settled engine its output is the function of its
inputs. -/
theorem mkOp2_settled {v : Env} {f : GateFn} {x y r : Sig} {e e' : Engine} (h : mkOp2 v f x y e = .ok (r, e')) :
    Keeps e e' ∧ ∀ e2, Keeps e' e2 → e2.consistent = true → e2.readSig r = f.apply (e2.readSig x) (e2.readSig y) := by
  have comm : ∀ a b, f.apply a b = f.apply b a := by cases f <;> decide
  cases x with
  | const a =>
    cases y with
    | const b => obtain ⟨rfl, rfl⟩ := build_pure_ok h; exact ⟨Keeps.refl _, fun _ _ _ => rfl⟩
    | node n =>
      obtain ⟨o, m, h1, h⟩ := build_bind_ok h
      obtain ⟨_, m2, h2, h⟩ := build_bind_ok h
      obtain ⟨rfl, rfl⟩ := build_pure_ok h
      have hs := subscribe_subsOf (build_perform_ok h2)
      refine ⟨(mkNode_keeps h1).trans hs.1, fun e2 hm hc => ?_⟩
      rw [comm]
      simpa [gateHolds, readSig] using gateHolds_of_consistent hc (hm _ _ hs.2) rfl
  | node n =>
    cases y with
    | const b =>
      obtain ⟨o, m, h1, h⟩ := build_bind_ok h
      obtain ⟨_, m2, h2, h⟩ := build_bind_ok h
      obtain ⟨rfl, rfl⟩ := build_pure_ok h
      have hs := subscribe_subsOf (build_perform_ok h2)
      refine ⟨(mkNode_keeps h1).trans hs.1, fun e2 hm hc => ?_⟩
      simpa [gateHolds, readSig] using gateHolds_of_consistent hc (hm _ _ hs.2) rfl
    | node k =>
      obtain ⟨o, m, h1, h⟩ := build_bind_ok h
      obtain ⟨_, m2, h2, h⟩ := build_bind_ok h
      obtain ⟨_, m3, h3, h⟩ := build_bind_ok h
      obtain ⟨rfl, rfl⟩ := build_pure_ok h
      have hs := subscribe_subsOf (build_perform_ok h2)
      have hs' := subscribe_subsOf (build_perform_ok h3)
      refine ⟨((mkNode_keeps h1).trans hs.1).trans hs'.1, fun e2 hm hc => ?_⟩
      simpa [gateHolds, readSig] using gateHolds_of_consistent hc (hm _ _ hs'.2) rfl

/-- R172: XOR, likewise. -/
theorem mkXor_settled {v : Env} {x y r : Sig} {e e' : Engine} (h : mkXor v x y e = .ok (r, e')) :
    Keeps e e' ∧ ∀ e2, Keeps e' e2 → e2.consistent = true → e2.readSig r = Settled.xor (e2.readSig x) (e2.readSig y) := by
  obtain ⟨a, m, h1, h⟩ := build_bind_ok h
  obtain ⟨b, m2, h2, h⟩ := build_bind_ok h
  obtain ⟨c, m3, h3, h4⟩ := build_bind_ok h2
  have g1 := mkOp2_settled h1
  have g3 := mkOp2_settled h3
  have g4 := mkNot_settled h4
  have g5 := mkOp2_settled h
  refine ⟨((g1.1.trans g3.1).trans g4.1).trans g5.1, fun e2 hm hc => ?_⟩
  rw [g5.2 e2 hm hc, g1.2 e2 (((g3.1.trans g4.1).trans g5.1).trans hm) hc, g4.2 e2 (g5.1.trans hm) hc,
    g3.2 e2 ((g4.1.trans g5.1).trans hm) hc]
  rfl

end Sys2Proof.Machine
end

