-- ==== Sys2Proof/Laws/PerInstr.lean ====
section
/-! SUPPORT. Statements about every instruction as syntax, one lemma for each constructor. -/

namespace Sys2Proof.Laws.TwoBytes

/-- R100, R106: every instruction is exactly two bytes, its opcode byte first, and no operand byte is barred (R105). -/
def Statement (i : Instr) : Prop := encode i = [opcodeOf i, operandOf i] ∧ (encode i).length = 2 ∧ i.wellFormed = true

theorem lod (a : Byte) : Statement (.lod a) := ⟨rfl, rfl, rfl⟩
theorem sto (a : Byte) : Statement (.sto a) := ⟨rfl, rfl, rfl⟩
theorem add (a : Byte) : Statement (.add a) := ⟨rfl, rfl, rfl⟩
theorem sub (a : Byte) : Statement (.sub a) := ⟨rfl, rfl, rfl⟩
theorem adc (a : Byte) : Statement (.adc a) := ⟨rfl, rfl, rfl⟩
theorem sbb (a : Byte) : Statement (.sbb a) := ⟨rfl, rfl, rfl⟩
theorem jmp (a : Byte) : Statement (.jmp a) := ⟨rfl, rfl, rfl⟩
theorem jiz (a : Byte) : Statement (.jiz a) := ⟨rfl, rfl, rfl⟩
theorem jic (a : Byte) : Statement (.jic a) := ⟨rfl, rfl, rfl⟩
theorem jnz (a : Byte) : Statement (.jnz a) := ⟨rfl, rfl, rfl⟩
theorem jnc (a : Byte) : Statement (.jnc a) := ⟨rfl, rfl, rfl⟩
theorem hlt (x : Byte) : Statement (.hlt x) := ⟨rfl, rfl, rfl⟩

end Sys2Proof.Laws.TwoBytes
end

