-- ==== Sys2Proof/Tests/Slice0.lean ====
section
/-! SUPPORT. The model's own tests: the WellFormed smoke, decoding of words written out from spec/30_encoding.md, the spec's examples
(spec/95_test_vectors.md, named V-…), and for every statement with hypotheses a witness that meets them. -/

namespace Sys2Proof.Tests

open Sys2Proof.Machine

/-! ### WellFormed: a term that each check refuses, beside one it admits. -/

theorem test_config_refuses_address_256 : Config.wellFormed { memInit := [(0x100, 0x01#8)] } = false := by decide
theorem test_config_admits_address_255 : Config.wellFormed { memInit := [(0xFF, 0x01#8)] } = true := by decide
theorem test_bus_refuses_256 : fitsBus 256 8 = false ∧ fitsBus 255 8 = true := by decide
theorem test_bus_refuses_negative : fitsBus (-1) 8 = false ∧ fitsBus 0 8 = true := by decide
theorem test_gate_refuses_no_operand : gateArityOk ([] : List Sig) = false ∧ gateArityOk [Sig.const true] = true := by decide
theorem test_adder_refuses_unequal_widths :
    adderWidthsOk [Sig.const true] ([] : List Sig) = false ∧ adderWidthsOk [Sig.const true] [Sig.const false] = true := by decide
theorem test_width_refuses_zero : widthOk 0 = false ∧ widthOk 1 = true := by decide
theorem test_bus_widths_refuse_unequal :
    busWidthsOk 1 [[Sig.const true], []] = false ∧ busWidthsOk 1 [[Sig.const true], [Sig.const false]] = true := by decide
theorem test_instruction_admits_any_operand : (Instr.hlt 0xAB#8).wellFormed = true ∧ (Instr.jmp 0xFF#8).wellFormed = true := by decide

/-! ### Decoding: every constructor from its word (V-N1), written bit by bit, first byte first; and V-N2. -/

theorem test_decode_lod : decode [0b00010000#8, 0b10000000#8] = .ok (.lod 0x80#8, []) := by rfl
theorem test_decode_sto : decode [0b00010001#8, 0b10000000#8] = .ok (.sto 0x80#8, []) := by rfl
theorem test_decode_add : decode [0b00100000#8, 0b10000000#8] = .ok (.add 0x80#8, []) := by rfl
theorem test_decode_sub : decode [0b00100001#8, 0b10000000#8] = .ok (.sub 0x80#8, []) := by rfl
theorem test_decode_adc : decode [0b00100010#8, 0b10000000#8] = .ok (.adc 0x80#8, []) := by rfl
theorem test_decode_sbb : decode [0b00100011#8, 0b10000000#8] = .ok (.sbb 0x80#8, []) := by rfl
theorem test_decode_jmp : decode [0b00110000#8, 0b10000000#8] = .ok (.jmp 0x80#8, []) := by rfl
theorem test_decode_jiz : decode [0b00110001#8, 0b10000000#8] = .ok (.jiz 0x80#8, []) := by rfl
theorem test_decode_jic : decode [0b00110010#8, 0b10000000#8] = .ok (.jic 0x80#8, []) := by rfl
theorem test_decode_jnz : decode [0b00110011#8, 0b10000000#8] = .ok (.jnz 0x80#8, []) := by rfl
theorem test_decode_jnc : decode [0b00110100#8, 0b10000000#8] = .ok (.jnc 0x80#8, []) := by rfl
theorem test_decode_hlt : decode [0b11111111#8, 0b00000000#8] = .ok (.hlt 0x00#8, []) := by rfl
theorem test_decode_leaves_the_rest : decode [0x30#8, 0x04#8, 0xFF#8] = .ok (.jmp 0x04#8, [0xFF#8]) := by rfl
theorem test_decode_rejects_by_name :
    [0x12#8, 0x1F#8, 0x24#8, 0x2F#8, 0x35#8, 0xFE#8, 0x00#8].map (fun op => decodePair op 0x80#8) =
      [0x12#8, 0x1F#8, 0x24#8, 0x2F#8, 0x35#8, 0xFE#8, 0x00#8].map fun op => .error (.undefinedOpcode op) := by rfl
theorem test_decode_truncated : decode [0x10#8] = .error .truncated := by rfl
theorem test_table_word_order : decodeTableWord 16 0x8111 = some (.sto 0x81#8) ∧ decodeTableWord 8 0x11 = some (.sto 0x00#8) := by decide
theorem test_listing : listingLine 0x02#8 (.sub 0x81#8) = "02: 21 81  SUB 0x81" ∧ asmText (.hlt 0x00#8) = "HLT" := by decide
theorem test_assemble :
    assemble [.instr (.lod 0x80#8), .bareHlt, .byte 0x0A#8] = [0x10#8, 0x80#8, 0xFF#8, 0x00#8, 0x0A#8] := by decide

/-! ### One instruction at a time, at the spec's examples. -/

/-- A machine after reset with the given PC, ACC, Z, C and the bytes listed. -/
def machine (pc acc : Byte) (z c : Bool) (cells : List Host.Cell) : State :=
  { State.reset with pc := pc, acc := acc, z := z, c := c, mem := Memory.ofCells cells }

/-- PC, ACC, Z and C after one whole instruction. -/
def after (s : State) : Option (Byte × Byte × Bool × Bool) := (next? (step s)).map fun t => (t.pc, t.acc, t.z, t.c)

/-- One byte after one whole instruction. -/
def byteAfter (s : State) (a : Byte) : Option Byte := (next? (step s)).map fun t => t.memRead a

/-- The two bytes of an instruction at `pc`, and one data byte. -/
def code (pc op x : Nat) (data : Host.Cell) : List Host.Cell :=
  [(pc, BitVec.ofNat 8 op), ((pc + 1) % 256, BitVec.ofNat 8 x), data]

/-- V-T1: flags unchanged. -/
theorem test_lod : after (machine 0x00#8 0x33#8 true true (code 0 0x10 0x80 (0x80, 0x0A#8))) = some (0x02#8, 0x0A#8, true, true) := by decide
/-- V-T2: a LOD of its own opcode. -/
theorem test_lod_own_opcode : after (machine 0x00#8 0x33#8 false false (code 0 0x10 0x00 (0x80, 0x0A#8))) = some (0x02#8, 0x10#8, false, false) := by decide
/-- V-T3. -/
theorem test_sto : byteAfter (machine 0x00#8 0x0A#8 false false (code 0 0x11 0x81 (0x80, 0x01#8))) 0x81#8 = some 0x0A#8 := by decide
/-- V-T4: the store goes to the address latched in AR. -/
theorem test_sto_own_operand :
    byteAfter (machine 0x00#8 0x44#8 false false (code 0 0x11 0x01 (0x80, 0x01#8))) 0x01#8 = some 0x44#8 ∧
      byteAfter (machine 0x00#8 0x44#8 false false (code 0 0x11 0x01 (0x80, 0x01#8))) 0x44#8 = some 0x00#8 := by decide
/-- R312: 0xFF + 0x01, the old C ignored. -/
theorem test_add_wraps : after (machine 0x00#8 0xFF#8 false true (code 0 0x20 0x80 (0x80, 0x01#8))) = some (0x02#8, 0x00#8, true, true) := by decide
/-- V-A2: the operand inside the program. -/
theorem test_add_own_opcode : after (machine 0x00#8 0x01#8 true false (code 0 0x20 0x00 (0x80, 0x00#8))) = some (0x02#8, 0x21#8, false, false) := by decide
/-- R313: 0x00 − 0x01. -/
theorem test_sub_borrows : after (machine 0x00#8 0x00#8 true true (code 0 0x21 0x80 (0x80, 0x01#8))) = some (0x02#8, 0xFF#8, false, false) := by decide
/-- R313: 0x0A − 0x05. -/
theorem test_sub : after (machine 0x00#8 0x0A#8 true false (code 0 0x21 0x80 (0x80, 0x05#8))) = some (0x02#8, 0x05#8, false, true) := by decide
/-- R314: 0x12 + 0x01 with C = 1. -/
theorem test_adc : after (machine 0x00#8 0x12#8 true true (code 0 0x22 0x80 (0x80, 0x01#8))) = some (0x02#8, 0x14#8, false, false) := by decide
/-- R314: 0xFF + 0x00 with C = 1. -/
theorem test_adc_wraps : after (machine 0x00#8 0xFF#8 false true (code 0 0x22 0x80 (0x80, 0x00#8))) = some (0x02#8, 0x00#8, true, true) := by decide
/-- R315: 0x14 − 0x00 with a borrow pending (C = 0). -/
theorem test_sbb : after (machine 0x00#8 0x14#8 false false (code 0 0x23 0x80 (0x80, 0x00#8))) = some (0x02#8, 0x13#8, false, true) := by decide
/-- R315: 0x00 − 0xFF with a borrow pending. -/
theorem test_sbb_zero : after (machine 0x00#8 0x00#8 false false (code 0 0x23 0x80 (0x80, 0xFF#8))) = some (0x02#8, 0x00#8, true, false) := by decide
/-- V-J1, JMP. -/
theorem test_jmp : after (machine 0x10#8 0x07#8 false false (code 0x10 0x30 0x40 (0x80, 0x01#8))) = some (0x40#8, 0x07#8, false, false) := by decide
/-- V-J1, JIZ. -/
theorem test_jiz : after (machine 0x10#8 0x00#8 true false (code 0x10 0x31 0x40 (0x80, 0x01#8))) = some (0x40#8, 0x00#8, true, false) := by decide
/-- V-J4: the fall-through wraps. -/
theorem test_jiz_wraps : after (machine 0xFE#8 0x00#8 false true (code 0xFE 0x31 0x40 (0x80, 0x01#8))) = some (0x00#8, 0x00#8, false, true) := by decide
/-- V-J1, JIC taken and not. -/
theorem test_jic : after (machine 0x10#8 0x00#8 false true (code 0x10 0x32 0x40 (0x80, 0x01#8))) = some (0x40#8, 0x00#8, false, true) := by decide
theorem test_jic_not_taken : after (machine 0x10#8 0x00#8 true false (code 0x10 0x32 0x40 (0x80, 0x01#8))) = some (0x12#8, 0x00#8, true, false) := by decide
/-- V-J1, JNZ taken and not. -/
theorem test_jnz : after (machine 0x10#8 0x00#8 false true (code 0x10 0x33 0x40 (0x80, 0x01#8))) = some (0x40#8, 0x00#8, false, true) := by decide
theorem test_jnz_not_taken : after (machine 0x10#8 0x00#8 true false (code 0x10 0x33 0x40 (0x80, 0x01#8))) = some (0x12#8, 0x00#8, true, false) := by decide
/-- V-J1, JNC taken and not. -/
theorem test_jnc : after (machine 0x10#8 0x00#8 true false (code 0x10 0x34 0x40 (0x80, 0x01#8))) = some (0x40#8, 0x00#8, true, false) := by decide
theorem test_jnc_not_taken : after (machine 0x10#8 0x00#8 false true (code 0x10 0x34 0x40 (0x80, 0x01#8))) = some (0x12#8, 0x00#8, false, true) := by decide
/-- R336: HLT clocked through, at 0x04. -/
theorem test_hlt : after (machine 0x04#8 0x07#8 true true (code 4 0xFF 0x00 (0x80, 0x01#8))) = some (0x06#8, 0x07#8, true, true) := by decide
/-- R72: HLT at 0xFF takes its operand from 0x00. -/
theorem test_hlt_at_ff :
    (next? (step (machine 0xFF#8 0x07#8 true true (code 0xFF 0xFF 0x30 (0x80, 0x01#8))))).map (fun t => (t.pc, t.cr, t.ar)) =
      some (0x01#8, 0xFF#8, 0x30#8) := by decide
/-- V-J8: an undefined opcode. -/
theorem test_undefined :
    (next? (step (machine 0x00#8 0x07#8 true false (code 0 0xFE 0x12 (0x80, 0x01#8))))).map (fun t => (t.pc, t.cr, t.ar, t.acc)) =
      some (0x02#8, 0xFE#8, 0x12#8, 0x07#8) := by decide
/-- V-M7: with takeover asserted, a LOD loads the byte at OV.addr. -/
theorem test_takeover_lod :
    (next? (exec (.lod 0x80#8) { machine 0x00#8 0x00#8 false false [(0x90, 0x5A#8)] with takeover := true, ovAddr := 0x90#8 })).map
      State.acc = some 0x5A#8 := by decide
/-- The host's placement: after reset, the very next step runs the word. -/
theorem test_withFetchWord :
    (next? (step (State.reset.withFetchWord 16 0x8030))).map State.pc = some 0x80#8 ∧
      (next? (step (State.reset.withFetchWord 16 0x0110))).map State.acc = some 0x01#8 := by decide

/-! ### The console, the driver and reset. -/

/-- The state V-M3's two loads leave. -/
def loaded : Option State :=
  (consoleLoad 0 [0x10, 0x80, 0x11, 0x81, 0xFF, 0x00] State.reset).state?.bind fun s => (consoleLoad 0x80 [0x0A] s).state?

/-- V-M3. -/
theorem test_console_load :
    loaded = some { State.reset with
      mem := [(0, 0x10#8), (1, 0x80#8), (2, 0x11#8), (3, 0x81#8), (4, 0xFF#8), (0x80, 0x0A#8)]
      ovAddr := 0x80#8
      ovData := 0x0A#8 } := by decide +kernel
/-- V-M4. -/
theorem test_console_read :
    (loaded.bind fun s => (consoleRead 0x81 s).value?) = some 0x00#8 ∧
      ((loaded.bind fun s => (consoleRead 0x81 s).state?).map fun s => (s.takeover, s.ovAddr)) = some (false, 0x81#8) := by
  decide +kernel
/-- V-H2: the bytes that fit are written, and takeover stays true. -/
theorem test_console_overflow :
    (consoleLoad 0xFE [1, 2, 3] State.reset).isHostError = true ∧
      (consoleLoad 0xFE [1, 2, 3] State.reset).state?.map (fun s => (s.mem, s.takeover)) =
        some ([(0xFE, 0x01#8), (0xFF, 0x02#8)], true) := by decide +kernel
/-- V-H3. -/
theorem test_console_negative : (consoleRead (-1) State.reset).isHostError = true := by decide +kernel
/-- R441: an address bus that changes from 0x02 to 0x07 can pass through 0x03 and 0x06; each takes a free byte. -/
theorem test_write_hazard :
    (List.range 256).filter (fun a => onPath (some 0x02#8) 0x07#8 (BitVec.ofNat 8 a)) = [2, 3, 6, 7] ∧
      (driveAddr 0x07#8 { State.reset with takeover := true, ovWrite := true, ovAddr := 0x02#8 }).engine.draws = 4 := by
  decide +kernel
/-- V-R1. -/
theorem test_reset :
    (next? (reset { machine 0x44#8 0x33#8 true true [(0x80, 0x0A#8)] with cr := 0xFF#8, ar := 0x07#8, ring := .p2 })) =
      some { machine 0x00#8 0x33#8 true true [(0x80, 0x0A#8)] with cr := 0xFF#8, ar := 0x07#8, ring := .p3 } := by decide +kernel
/-- V-C1. -/
theorem test_run_phases :
    (next? (runPhases 2 (machine 0x00#8 0x00#8 false false [(0, 0x10#8), (1, 0x80#8)]))).map (fun t => (t.cr, t.ar, t.pc, t.ring)) =
      some (0x10#8, 0x80#8, 0x02#8, .p2) := by decide +kernel
/-- V-J5: `run()` stops past the operand of the HLT at 0x00, one instruction short of V-J5's address. -/
theorem test_run :
    (next? (run 8 (machine 0x44#8 0x05#8 false false [(0, 0x00#8), (2, 0xFF#8), (3, 0x21#8)]))).map (fun t => (t.pc, t.cr, t.ar, t.ring, t.acc)) =
      some (0x04#8, 0xFF#8, 0x21#8, .p2, 0x05#8) := by decide +kernel
/-- R264: a session of three calls, with the byte the last one read. -/
theorem test_session :
    (session [.consoleLoad 0x10 [0x0A], .reset, .consoleRead 0x10] (State.construct Config.spec)).value? = some [0x0A#8] := by decide +kernel
/-- V-C4: a listener on the clock node ends the call after its first phase. -/
theorem test_stop_request :
    ((hostCall (.subscribe 0 (.listener 1 (.stopAt 1))) State.reset).state?.bind fun s => next? (runPhases 10 s)).map
      (fun t => (t.ring, t.stopReq)) = some (.p1, true) := by decide +kernel

/-! ### The engine and the library. -/

/-- An environment with draws that alternate. -/
def env : Env := ⟨.captured, 256, fun n => n % 2 == 0, .rising⟩

/-- What a construction leaves, from an engine with no node; `none` if it stops. -/
def build {α : Type} (b : Build α) : Option (α × Engine) :=
  match b {} with
  | .ok r => some r
  | .error _ => none

/-- A write of a signal inside a construction. -/
def put (x : Sig) (b : Bool) : Build Unit := Build.perform (Engine.writeSig env x b)

/-- A recording listener. -/
def watch (x : Sig) (id : Nat) : Build Unit := Build.perform (Engine.subscribeSig env x (.listener id .record))

/-- V-E4: registration and breadth-first order along a chain. -/
theorem test_chain :
    (build (do
      let x ← mkNode
      let n1 ← mkNot env (.node x)
      watch (.node x) 0
      let n2 ← mkNot env n1
      watch n1 1
      watch n2 2
      put (.node x) true)).map (fun r => r.2.seen) =
      some [(0, false), (1, true), (2, false), (0, true), (1, false), (2, true)] := by decide +kernel
/-- V-E5: the diamond. -/
theorem test_diamond :
    (build (do
      let a ← mkNode
      let b ← mkNot env (.node a)
      let c ← mkNot env (.node a)
      let d ← mkAnd env b c
      watch d 3
      watch c 2
      watch b 1
      watch (.node a) 0
      put (.node a) true)).map (fun r => r.2.seen.drop 4) = some [(0, true), (1, false), (2, false), (3, false)] := by decide +kernel
/-- V-E9: one log entry, the group read at that instant. -/
theorem test_log :
    (Engine.write env 0 true { nodes := [{ tag := some "q", group := some [0, 1] }, { value := true }] }).toOption.map Engine.log =
      some [⟨0, "q", true, some 3⟩] := by decide +kernel
/-- V-E10: an inverter on itself does not settle. -/
theorem test_not_settling :
    (match Engine.write env 0 true { nodes := [{ subs := [.not 0] }] } with
      | .error (.fault .didNotSettle) => true
      | _ => false) = true := by decide +kernel
/-- V-G4: the XOR glitch. -/
theorem test_xor_glitch :
    (build (do
      let s ← mkNode
      let t ← mkNot env (← mkNot env (← mkNot env (.node s)))
      let x ← mkXor env t (.node s)
      watch x 0
      put (.node s) true)).map (fun r => r.2.seen) = some [(0, true), (0, false), (0, true)] := by decide +kernel
/-- V-G5: a gate of no operand is refused. -/
theorem test_empty_gate : (build (mkMulti env .and [])).isNone = true := by decide +kernel
/-- V-S1: the latch sets, holds, resets; both inputs true take one draw; r released, s sets it. -/
theorem test_sr :
    (build (do
      let r ← mkNode
      let s ← mkNode
      let q ← mkSr env (.node r) (.node s)
      watch q 0
      put (.node s) true
      put (.node s) false
      put (.node r) true
      put (.node s) true
      put (.node r) false)).map (fun r => (r.2.seen.take 3, r.2.draws, r.2.read 2)) =
      some ([(0, false), (0, true), (0, false)], 1, true) := by decide +kernel
/-- V-S5: the edge latch. -/
theorem test_edge_latch :
    (build (do
      let clock ← mkNode
      let data ← mkNode
      let q ← mkEdge env (.node clock) (.node data)
      watch q 0
      put (.node data) true
      put (.node clock) true
      put (.node data) false
      put (.node clock) false
      put (.node clock) true)).map (fun r => r.2.seen) = some [(0, false), (0, true), (0, false)] := by decide +kernel
/-- V-K7: the ring, cleared once and clocked. -/
theorem test_ring :
    (build (do
      let clock ← mkNode
      let clear ← mkNode
      let out ← mkRing env 3 (.node clock) (.node clear)
      put (.node clear) true
      put (.node clear) false
      put (.node clock) true
      put (.node clock) false
      pure out)).map (fun r => r.2.readBus r.1) = some [true, false, false] := by decide +kernel
/-- R231 with P_RIPPLE_EDGE falling: a rising edge is not counted, the falling edge after it is. -/
theorem test_ripple_falling :
    (build (do
      let clock ← mkNode
      let clear ← mkNode
      let q ← mkRipple { env with edge := .falling } 2 (.node clock) (.node clear)
      put (.node clear) true
      put (.node clear) false
      watch (q.headD (.const true)) 0
      put (.node clock) true
      put (.node clock) false)).map (fun r => r.2.seen) = some [(0, false), (0, true)] := by decide +kernel
/-- R175 for two 2-bit inputs: select 1 gives the second bus. -/
theorem test_bus_mux :
    (build (mkBusMux env [.const true] 2 [[.const true, .const false], [.const false, .const true]])).map Prod.fst =
      some [.const false, .const true] := by decide +kernel
/-- R176 for a 2-bit data bus: each data bit appears on the selected line; one decoder alone has data TRUE by default. -/
theorem test_bus_decoder :
    (build (mkBusDecoder env [.const true] [.const true, .const false])).map Prod.fst =
      some [[.const false, .const true], [.const false, .const false]] ∧
      (build (mkDecoder env [.const false])).map Prod.fst = some [.const true, .const false] := by decide +kernel
/-- R9: a component of width 0 is refused. -/
theorem test_zero_width :
    (build (mkMultiAdder env [] [] (.const false))).isNone = true ∧ (build (mkRipple env 0 (.const false) (.const false))).isNone = true := by
  decide +kernel
/-- V-G9: 0x80 + 0x80. -/
theorem test_multi_adder : Settled.multiAdder (bitsOf 8 0x80) (bitsOf 8 0x80) false = (bitsOf 8 0, true) := by decide

/-! ### Witnesses: for each statement with hypotheses, a state and operands that meet all of them; for several clauses, one each. -/

theorem witness_DecodeAndEncodeAgree : ∃ i : Instr, i.wellFormed = true ∧ decode ([0xFF#8, 0xAB#8] ++ [0x10#8]) = .ok (i, [0x10#8]) :=
  ⟨.hlt 0xAB#8, rfl, rfl⟩
/-- Both sides of every range of R104. -/
theorem witness_UndefinedOpcodesAreRejectedByName :
    [0x00#8, 0x0F#8, 0x12#8, 0x1F#8, 0x24#8, 0x2F#8, 0x35#8, 0xFE#8].all undefinedOpcode = true ∧
      [0x10#8, 0x11#8, 0x20#8, 0x23#8, 0x30#8, 0x34#8, 0xFF#8].any undefinedOpcode = false := by decide
theorem witness_StepRunsTheDecodedInstruction : ∃ (s : State) (i : Instr), s.ring = .p3 ∧ s.resetLine = false ∧ i.wellFormed = true ∧
    decode [s.cpuRead s.pc, s.cpuRead (s.pc + 1#8)] = .ok (i, []) :=
  ⟨machine 0xFF#8 0x01#8 false false (code 0xFF 0x20 0x80 (0x80, 0x01#8)), .add 0x80#8, rfl, rfl, rfl, rfl⟩
theorem witness_UndefinedOpcodeIsANoOp : ∃ (s : State) (op a : Byte), s.fetches op a ∧ undefinedOpcode op = true :=
  ⟨machine 0x00#8 0x01#8 true true (code 0 0xFE 0x12 (0x80, 0x01#8)), 0xFE#8, 0x12#8, ⟨rfl, rfl, rfl, rfl⟩, rfl⟩
theorem witness_PhaseOneFetchesTheOpcode : ∃ s : State, s.ring = .p3 ∧ s.resetLine = false := ⟨State.reset, rfl, rfl⟩
theorem witness_PhaseTwoFetchesTheOperand : ∃ s : State, s.ring = .p1 ∧ s.resetLine = false := ⟨{ State.reset with ring := .p1 }, rfl, rfl⟩
/-- At a boundary of instructions, and inside one. -/
theorem witness_EveryInstructionCompletes :
    (∃ s : State, s.ring ≠ .none ∧ s.resetLine = false) ∧ ∃ s : State, s.ring = .p2 ∧ s.ring ≠ .none ∧ s.resetLine = false :=
  ⟨⟨State.reset, by decide, rfl⟩, { State.reset with ring := .p2 }, rfl, by decide, rfl⟩
theorem witness_ClockingWithResetHeldIsRefused : ∃ s : State, s.resetLine = true := ⟨{ State.reset with resetLine := true }, rfl⟩
theorem witness_ClockingBeforeTheFirstReset :
    (∃ s : State, s.ring = .none ∧ s.resetLine = false ∧ s.cfg.preResetClock = .refuse) ∧
      ∃ s : State, s.ring = .none ∧ s.resetLine = false ∧ s.cfg.preResetClock = .idle :=
  ⟨⟨State.construct Config.spec, rfl, rfl, rfl⟩, State.construct { preResetClock := .idle }, rfl, rfl, rfl⟩
theorem witness_StepsKeepTheGoodState :
    (∃ s t : State, s.good = true ∧ step s = .next t) ∧ ∃ s t : State, s.good = true ∧ phaseStep s = .next t :=
  ⟨⟨machine 0x00#8 0x0A#8 false false (code 0 0x11 0x81 (0x80, 0x01#8)), _, rfl, rfl⟩, State.reset, _, rfl, rfl⟩
theorem witness_OnlyTheHostChangesTheHostSide :
    (∃ s t : State, step s = .next t) ∧ ∃ s t : State, phaseStep s = .next t := ⟨⟨State.reset, _, rfl⟩, State.reset, _, rfl⟩
theorem witness_OnlyArithmeticWritesTheFlags : [Instr.lod 0#8, .sto 0#8, .jmp 0#8, .jiz 0#8, .jic 0#8, .jnz 0#8, .jnc 0#8, .hlt 0#8].all
    (fun i => !i.isArith) = true := by decide
theorem witness_OnlyStoWritesMemory :
    (∃ (i : Instr) (s : State), s.cfg.arithWriteback = false ∧ ∀ a, i ≠ .sto a) ∧
      (∃ s t : State, (s.ring = .p3 ∨ s.ring = .p1) ∧ phaseStep s = .next t) ∧
      ∃ s t : State, s.ring = .p1 ∧ (s.ring = .p3 ∨ s.ring = .p1) ∧ phaseStep s = .next t :=
  ⟨⟨.add 0x80#8, State.reset, rfl, by decide⟩, ⟨State.reset, _, .inl rfl, rfl⟩, { State.reset with ring := .p1 }, _, rfl, .inr rfl, rfl⟩
theorem witness_StoStoresTheAccumulator :
    (∃ s : State, s.mem.wf = true ∧ s.takeover = false) ∧ ∃ s : State, s.mem.wf = true ∧ s.takeover = true :=
  ⟨⟨State.reset, rfl, rfl⟩, { State.reset with takeover := true }, rfl, rfl⟩
theorem witness_SubSubtractsTheOperand :
    (∃ s : State, s.cfg.borrowPolarity = .carryOut) ∧ ∃ s : State, s.cfg.borrowPolarity = .borrow :=
  ⟨⟨State.reset, rfl⟩, State.construct { borrowPolarity := .borrow }, rfl⟩
theorem witness_SbbSubtractsTheOperandAndTheBorrow :
    (∃ s : State, s.cfg.borrowPolarity = .carryOut ∧ pendingBorrow s.cfg.borrowPolarity s.c = 1) ∧
      ∃ s : State, s.cfg.borrowPolarity = .borrow ∧ pendingBorrow s.cfg.borrowPolarity s.c = 0 :=
  ⟨⟨State.reset, rfl, rfl⟩, State.construct { borrowPolarity := .borrow }, rfl, rfl⟩
/-- With P_ARITH_WRITEBACK the frame's store clause applies: a canonical memory, takeover false. -/
theorem witness_AddAddsTheOperand :
    (∃ s : State, s.cfg.arithWriteback = true ∧ s.takeover = false ∧ s.mem.wf = true) ∧ ∃ s : State, s.cfg.arithWriteback = false :=
  ⟨⟨State.construct { arithWriteback := true }, rfl, rfl, rfl⟩, State.reset, rfl⟩

/-- A machine after reset that fetches `op` and `0x80` at 0x20 (V-N1). -/
def fetching (op : Nat) : State := machine 0x20#8 0x07#8 false true (code 0x20 op 0x80 (0x80, 0x05#8))

theorem witness_LodInstructionCycle : ∃ (s : State) (a : Byte), s.fetches 0x10#8 a := ⟨fetching 0x10, 0x80#8, rfl, rfl, rfl, rfl⟩
theorem witness_StoInstructionCycle : ∃ (s : State) (a : Byte), s.fetches 0x11#8 a ∧ s.mem.wf = true :=
  ⟨fetching 0x11, 0x80#8, ⟨rfl, rfl, rfl, rfl⟩, rfl⟩
theorem witness_AddInstructionCycle : ∃ (s : State) (a : Byte), s.fetches 0x20#8 a ∧ s.specArith :=
  ⟨fetching 0x20, 0x80#8, ⟨rfl, rfl, rfl, rfl⟩, rfl, rfl⟩
theorem witness_SubInstructionCycle : ∃ (s : State) (a : Byte), s.fetches 0x21#8 a ∧ s.specArith :=
  ⟨fetching 0x21, 0x80#8, ⟨rfl, rfl, rfl, rfl⟩, rfl, rfl⟩
theorem witness_AdcInstructionCycle : ∃ (s : State) (a : Byte), s.fetches 0x22#8 a ∧ s.specArith :=
  ⟨fetching 0x22, 0x80#8, ⟨rfl, rfl, rfl, rfl⟩, rfl, rfl⟩
theorem witness_SbbInstructionCycle : ∃ (s : State) (a : Byte), s.fetches 0x23#8 a ∧ s.specArith :=
  ⟨fetching 0x23, 0x80#8, ⟨rfl, rfl, rfl, rfl⟩, rfl, rfl⟩
theorem witness_JumpInstructionCycles :
    (∃ s : State, s.fetches 0x30#8 0x80#8) ∧ (∃ s : State, s.fetches 0x31#8 0x80#8) ∧ (∃ s : State, s.fetches 0x32#8 0x80#8) ∧
      (∃ s : State, s.fetches 0x33#8 0x80#8) ∧ ∃ s : State, s.fetches 0x34#8 0x80#8 :=
  ⟨⟨fetching 0x30, rfl, rfl, rfl, rfl⟩, ⟨fetching 0x31, rfl, rfl, rfl, rfl⟩, ⟨fetching 0x32, rfl, rfl, rfl, rfl⟩,
    ⟨fetching 0x33, rfl, rfl, rfl, rfl⟩, fetching 0x34, rfl, rfl, rfl, rfl⟩
theorem witness_HltInstructionCycle : ∃ (s : State) (x : Byte), s.fetches 0xFF#8 x := ⟨fetching 0xFF, 0x80#8, rfl, rfl, rfl, rfl⟩

theorem witness_AddThenAdcIsSixteenBitAddition : ∃ (s s1 s2 s3 s4 : State) (lo st hi a : Byte), s.cfg.arithWriteback = false ∧
    exec (.add lo) s = .next s1 ∧ exec (.sto st) s1 = .next s2 ∧ exec (.lod hi) s2 = .next s3 ∧ exec (.adc a) s3 = .next s4 :=
  ⟨machine 0x00#8 0xFF#8 false false [(0x80, 0x01#8), (0x81, 0x12#8)], _, _, _, _, 0x80#8, 0x90#8, 0x81#8, 0x81#8, rfl, rfl, rfl, rfl, rfl⟩
theorem witness_SubThenSbbIsSixteenBitSubtraction :
    (∃ (s s1 s2 s3 s4 : State) (lo st hi a : Byte), s.cfg.borrowPolarity = .carryOut ∧ s.cfg.arithWriteback = false ∧
      exec (.sub lo) s = .next s1 ∧ exec (.sto st) s1 = .next s2 ∧ exec (.lod hi) s2 = .next s3 ∧ exec (.sbb a) s3 = .next s4) ∧
    ∃ (s s1 s2 s3 s4 : State) (lo st hi a : Byte), s.cfg.borrowPolarity = .borrow ∧ s.cfg.arithWriteback = false ∧
      exec (.sub lo) s = .next s1 ∧ exec (.sto st) s1 = .next s2 ∧ exec (.lod hi) s2 = .next s3 ∧ exec (.sbb a) s3 = .next s4 :=
  ⟨⟨machine 0x00#8 0x00#8 false false [(0x80, 0x01#8), (0x81, 0x14#8)], _, _, _, _, 0x80#8, 0x90#8, 0x81#8, 0x82#8, rfl, rfl, rfl, rfl, rfl, rfl⟩,
    State.construct { borrowPolarity := .borrow, accInit := 0x00#8, memInit := [(0x80, 0x01#8), (0x81, 0x14#8)] }, _, _, _, _, 0x80#8, 0x90#8,
    0x81#8, 0x82#8, rfl, rfl, rfl, rfl, rfl, rfl⟩

theorem witness_ConsoleMemoryAddressing : ∃ (s : State) (a a' : Byte), s.mem.wf = true ∧ s.ovWrite = false ∧ a' ≠ a :=
  ⟨machine 0x00#8 0x00#8 false false [(0x40, 0xAB#8)], 0xFF#8, 0x00#8, rfl, rfl, by decide⟩
/-- The last byte of the address space, and a load that fills all of what is left. -/
theorem witness_ConsoleLoadPlacesEveryByte : ∃ (s : State) (a : Nat) (bytes : List Byte), s.mem.wf = true ∧ s.ovWrite = false ∧
    a + bytes.length = 256 ∧ a + bytes.length ≤ 256 :=
  ⟨State.reset, 255, [0x07#8], rfl, rfl, rfl, by decide⟩
/-- Both ends of "does not fit": the failing byte at the last address; the address past it; and an address that does not fit at once. -/
theorem witness_ConsoleOverflowKeepsEarlierBytes :
    (∃ (s : State) (a : Nat) (bytes : List Byte) (bad : Int), s.mem.wf = true ∧ s.ovWrite = false ∧ a + bytes.length < 256 ∧
      bad = -1 ∧ (bad < 0 ∨ 256 ≤ bad)) ∧
    ∃ (s : State) (a : Nat) (bytes : List Byte) (bad : Int), s.mem.wf = true ∧ s.ovWrite = false ∧ a + bytes.length < 256 ∧
      bad = 256 ∧ (bad < 0 ∨ 256 ≤ bad) :=
  ⟨⟨State.reset, 0xFE, [0x01#8], -1, rfl, rfl, by decide, rfl, by decide⟩, State.reset, 0xFE, [0x01#8], 256, rfl, rfl, by decide, rfl, by decide⟩
theorem witness_ConsoleOverflowAtTheAddress :
    (∃ (s : State) (a : Nat) (bytes : List Byte), s.mem.wf = true ∧ s.ovWrite = false ∧ a + bytes.length = 256) ∧
      (∃ (s : State) (a : Int), s.ovWrite = false ∧ a = -1 ∧ (a < 0 ∨ 256 ≤ a)) ∧
      ∃ (s : State) (a : Int), s.ovWrite = false ∧ a = 256 ∧ (a < 0 ∨ 256 ≤ a) :=
  ⟨⟨State.reset, 0xFE, [0x01#8, 0x02#8], rfl, rfl, rfl⟩, ⟨State.reset, -1, rfl, rfl, by decide⟩, State.reset, 256, rfl, rfl, by decide⟩
theorem witness_ConsoleReadDisturbsOnlyItsAddress : ∃ s : State, s.ovWrite = false := ⟨State.reset, rfl⟩
/-- 0, 2^w − 1, −1 and 2^w at w = 8, with a bus of that width; they are the console's bounds too. -/
theorem witness_BusConversionNeverTruncates :
    ((0 : Int) ≤ 0 ∧ (0 : Int) < 2 ^ 8) ∧ ((0 : Int) ≤ 255 ∧ (255 : Int) < 2 ^ 8) ∧ ¬((0 : Int) ≤ -1 ∧ (-1 : Int) < 2 ^ 8) ∧
      ¬((0 : Int) ≤ 256 ∧ (256 : Int) < 2 ^ 8) ∧ (2 : Int) ^ 8 = 256 ∧ (List.replicate 8 (Sig.node 0)).length = 8 := by decide
theorem witness_TakeoverReroutesTheComputer :
    (∃ s t : State, s.takeover = true ∧ step s = .next t) ∧ ∃ s : State, s.takeover = false ∧ s.mem.wf = true :=
  ⟨⟨{ fetching 0x11 with takeover := true, ovAddr := 0x20#8 }, _, rfl, rfl⟩, State.reset, rfl, rfl⟩

theorem witness_ResetWritesOnlyPcAndRing :
    (∃ s : State, s.cr = 0xFF#8 ∧ (s.cr = 0xFF#8 ∨ undefinedOpcode s.cr = true)) ∧
      ∃ s : State, undefinedOpcode s.cr = true ∧ (s.cr = 0xFF#8 ∨ undefinedOpcode s.cr = true) :=
  ⟨⟨{ fetching 0x10 with cr := 0xFF#8, ring := .p2 }, rfl, .inl rfl⟩, State.construct Config.spec, rfl, .inr rfl⟩
theorem witness_ResetDuringAnInstruction :
    (∃ s : State, s.cr ≠ 0xFF#8 ∧ undefinedOpcode s.cr = false ∧ s.cfg.resetMidrun = .refuse) ∧
      ∃ s : State, s.cr ≠ 0xFF#8 ∧ undefinedOpcode s.cr = false ∧ s.cfg.resetMidrun = .clean :=
  ⟨⟨{ State.reset with cr := 0x30#8 }, by decide, rfl, rfl⟩,
    { State.construct { resetMidrun := .clean } with cr := 0x10#8 }, by decide, rfl, rfl⟩
theorem witness_PhasesAndInstructionsAgree : ∃ s : State, s.ring = .p3 ∧ s.resetLine = false ∧ s.quietClock = true :=
  ⟨State.reset, rfl, rfl, rfl⟩
/-- An operation that answers, with a check that its answer passes. -/
def answers {ε β : Type} (x : Except ε β) (p : β → Bool) : Bool :=
  match x with
  | .ok r => p r
  | .error _ => false

theorem exists_of_answers {ε β : Type} {x : Except ε β} {p : β → Bool} (h : answers x p = true) : ∃ r, x = .ok r ∧ p r = true := by
  cases x with
  | ok r => exact ⟨r, rfl, h⟩
  | error e => exact absurd h (by simp [answers])

theorem exists_of_next {r : Result} {p : State → Bool} (h : (next? r).any p = true) : ∃ t, r = .next t ∧ p t = true := by
  cases r with
  | next t => exact ⟨t, rfl, by simpa [next?] using h⟩
  | fault e => simp [next?] at h
  | refused e => simp [next?] at h

/-- A return by `pred`, after the second phase. -/
theorem witness_RunUntilStopsAtTheFirstHit : ∃ t : State, runUntil 4 (fun s => s.pc == 0x02#8) State.reset = .next t ∧ t.ring = .p2 := by
  obtain ⟨t, ht, hr⟩ := exists_of_next (r := runUntil 4 (fun s => s.pc == 0x02#8) State.reset) (p := fun t => t.ring == .p2) (by decide +kernel)
  exact ⟨t, ht, by simpa using hr⟩
theorem witness_RunEndsPastTheHltOperand : ∃ s t : State, s.takeover = false ∧ run 4 s = .next t ∧ t.stopReq = false := by
  obtain ⟨t, ht, hs⟩ := exists_of_next (r := run 4 (machine 0x00#8 0x05#8 false false [(0, 0xFF#8), (1, 0x21#8)]))
    (p := fun t => !t.stopReq) (by decide +kernel)
  exact ⟨_, t, rfl, ht, by simpa using hs⟩

/-- A small settled network: an input, its inverter, and a latch set by the one and reset by the other. -/
def net : Engine := { nodes := [
  { value := false, subs := [.not 1, .sr 2 (.node 1) (.node 0)] },
  { value := true, subs := [.sr 2 (.node 1) (.node 0)] },
  { value := false }] }

theorem witness_WriteOfHeldValueIsANoOp : ∃ (e : Engine) (n : Nat) (b : Bool), n < e.nodes.length ∧ e.read n = b :=
  ⟨net, 2, false, by decide, rfl⟩
/-- A callback that is registered twice, and one that is not. -/
theorem witness_UnsubscribeRemovesTheEarliest :
    (∃ (e : Engine) (cb : Callback), cb ∉ e.subsOf 0) ∧
      ∃ (e : Engine) (cb : Callback) (front back : List Callback), e.subsOf 0 = front ++ cb :: back ∧ cb ∉ front :=
  ⟨⟨net, .not 2, by decide⟩,
    { nodes := [{ subs := [.not 1, .listener 0 .record, .listener 0 .record] }, {}] }, .listener 0 .record, [.not 1],
      [.listener 0 .record], rfl, by decide⟩
theorem witness_WriteLeavesTheEngineSettled : ∃ e' : Engine, net.idle = true ∧ Engine.write env 0 true net = .ok e' := by
  obtain ⟨e', h, _⟩ := exists_of_answers (x := Engine.write env 0 true net) (p := fun e' => e'.read 0) (by decide +kernel)
  exact ⟨e', rfl, h⟩
theorem witness_SettlingReachesAFixedPoint : ∃ e' : Engine, net.idle = true ∧ net.wired = true ∧ net.consistent = true ∧
    net.isInput 0 = true ∧ Engine.write env 0 true net = .ok e' ∧ e'.read 1 = false := by
  obtain ⟨e', h, hr⟩ := exists_of_answers (x := Engine.write env 0 true net) (p := fun e' => !e'.read 1) (by decide +kernel)
  exact ⟨e', by decide, by decide +kernel, by decide +kernel, by decide +kernel, h, by simpa using hr⟩
/-- The four input pairs of a latch. -/
theorem witness_LatchDrawIsFree : ∃ (e : Engine) (t f : Sig), e.readSig t = true ∧ e.readSig f = false :=
  ⟨net, .node 1, .node 0, rfl, rfl⟩
theorem witness_MultiAdderAddsModuloTheWidth : ∃ xs ys : List Bool, xs.length = ys.length ∧ 2 ^ xs.length ≤ busValue xs + busValue ys :=
  ⟨[true, true], [true, false], by decide, by decide⟩
theorem witness_AddSubtractUnitReportsOverflow : ∃ xs ys : List Bool, xs.length = ys.length ∧ busValue xs < busValue ys :=
  ⟨[true, false], [false, true], by decide, by decide⟩
/-- A one-bit add/subtract unit on two input nodes, 0 − 1 in one mode and 0 + 1 in the other. -/
theorem witness_BuiltAddSubtractUnit : ∀ b : Bool, ∃ (e0 e1 e2 : Engine) (out : List Sig × Sig × Sig),
    (mkAddSub env [.node 0] [.node 1] (.node 2)) e0 = .ok (out, e1) ∧ e1.extendsTo e2 = true ∧ e2.consistent = true ∧
      e2.readSig (.node 2) = b ∧ e2.readSig out.2.2 = b := by
  intro b
  obtain ⟨r, h, hr⟩ := exists_of_answers
    (x := (mkAddSub env [.node 0] [.node 1] (.node 2)) { nodes := [{}, { value := true }, { value := b }] })
    (p := fun r => r.2.extendsTo r.2 && r.2.consistent && (r.2.readSig (.node 2) == b) && (r.2.readSig r.1.2.2 == b))
    (by cases b <;> decide +kernel)
  simp only [Bool.and_eq_true, beq_iff_eq] at hr
  exact ⟨_, r.2, r.2, r.1, h, hr.1.1.1, hr.1.1.2, hr.1.2, hr.2⟩
/-- A one-bit adder on two input nodes, settled after a write of one of them. -/
theorem witness_BuiltAdderAddsWhenSettled : ∃ (e0 e1 e2 : Engine) (out : List Sig × Sig),
    (mkMultiAdder env [.node 0] [.node 1] (.const true)) e0 = .ok (out, e1) ∧ e1.extendsTo e2 = true ∧ e2.consistent = true ∧
      e2.readSig out.2 = true := by
  obtain ⟨r, h, hr⟩ := exists_of_answers (x := (mkMultiAdder env [.node 0] [.node 1] (.const true)) { nodes := [{ value := true }, {}] })
    (p := fun r => r.2.extendsTo r.2 && r.2.consistent && r.2.readSig r.1.2) (by decide +kernel)
  simp only [Bool.and_eq_true] at hr
  exact ⟨_, r.2, r.2, r.1, h, hr.1.1, hr.1.2, hr.2⟩
/-- One active output; a phase step from P3, and the idle one before the first reset. -/
theorem witness_RingStaysOneHot :
    (∃ out : List Bool, Settled.trueCount out = 1 ∧ Settled.trueCount out ≤ 1) ∧
      (∃ s t : State, s.ring = .p3 ∧ phaseStep s = .next t) ∧ ∃ s t : State, s.ring = .none ∧ phaseStep s = .next t :=
  ⟨⟨[false, false, true], rfl, by decide⟩, ⟨State.reset, _, rfl, rfl⟩, State.construct { preResetClock := .idle }, _, rfl, rfl⟩

end Sys2Proof.Tests
end

section
/-! PROOFS. The console's two protocols on single addresses (spec/20_memory.md R68, R69), and the addressing law they give (R82). -/

namespace Sys2Proof.Machine

/-- R68 for one byte, as a whole call: the byte is stored at its address, the console's buses keep what drove the store, and takeover
ends released. -/
theorem consoleLoad_singleton (a v : Byte) {s : State} (h : s.ovWrite = false) :
    consoleLoad a.toNat [(v.toNat : Int)] s =
      .returned () ((((s.setOvAddr a).setOvData v).memWrite a v).setTakeoverLine false) := by
  rw [consoleLoad, driveTakeover_low true s h, consoleLoadFrom_byte a v [] _ (by simpa using h) rfl, consoleLoadFrom,
    driveTakeover_low _ _ (by simpa using h)]
  rfl

/-- R69: a read with OV.write low answers the byte at its address, leaving OV.addr there and takeover released (D39). -/
theorem consoleRead_low (a : Byte) {s : State} (h : s.ovWrite = false) :
    consoleRead a.toNat s = .returned (s.memRead a) ((s.setOvAddr a).setTakeoverLine false) := by
  simp only [consoleRead, toByteBus_byte]
  rw [driveTakeover_low true s h, driveAddr_low a _ (by simpa using h), driveTakeover_low _ _ (by simpa using h)]
  rfl

theorem consoleRead_value_low (a : Byte) {s : State} (h : s.ovWrite = false) :
    (consoleRead a.toNat s).value? = some (s.memRead a) := by
  rw [consoleRead_low a h, Reply.value?]

/-- Settles O39: a one-byte load is a memory write and leaves the write line low, so both reads after it are reads of that memory,
and R63's two laws answer them. -/
theorem consoleMemoryAddressing : Obligations.ConsoleMemoryAddressing := by
  intro s a a' v hwf hlow
  refine ⟨_, congrArg Reply.state? (consoleLoad_singleton a v hlow), ?same, fun hne => ?other⟩
  case same =>
    rw [consoleRead_value_low a (by simpa using hlow)]
    exact congrArg some (State.memRead_memWrite_same (s := (s.setOvAddr a).setOvData v) hwf a v)
  case other =>
    rw [consoleRead_value_low a' (by simpa using hlow)]
    exact congrArg some (State.memRead_memWrite_other ((s.setOvAddr a).setOvData v) v hne)

end Sys2Proof.Machine
end

section
/-! PROOFS. The guard that opens Write(n, b) in the signal engine (spec/40_signal_engine.md R133, R135). -/

namespace Sys2Proof.Machine

/-- R135 at the node's record: the guard answers before the post and the drain, so neither the queue nor an active drain matters. -/
theorem Engine.write_of_held (v : Env) {e : Engine} {n : Nat} {d : Node} (hd : e.nodes[n]? = some d) :
    Engine.write v n d.value e = .ok e := by
  simp only [Engine.write, hd, ↓reduceIte]

/-- Settles O51: a handle inside the arena has a node, what is read there is that node's value, and the guard of Write answers. -/
theorem writeOfHeldValueIsANoOp : Obligations.WriteOfHeldValueIsANoOp := by
  intro v e n b hn hread
  have hnode : e.nodes[n]? = some e.nodes[n] := List.getElem?_eq_getElem hn
  have hheld : e.nodes[n].value = b := (Engine.read_of_node hnode).symm.trans hread
  exact hheld ▸ Engine.write_of_held v hnode

end Sys2Proof.Machine
end

section
/-! PROOFS. The two fetch phases of the instruction cycle, as whole steps (spec/45_instruction_cycle.md R281, R282). -/

namespace Sys2Proof.Machine

/-- The ring is no part of what the Computer reads (R84). -/
@[simp] theorem State.cpuRead_setRing (s : State) (r : Ring) (a : Byte) : (s.setRing r).cpuRead a = s.cpuRead a :=
  cpuRead_congr rfl rfl rfl a

/-- The opcode fetch latches what the state held before the ring advanced. -/
theorem phase1_setRing (s : State) (r : Ring) :
    phase1 (s.setRing r) = { s with cr := s.cpuRead s.pc, pc := s.pc + 1#8, ring := r } := by
  rw [phase1, State.setRing_pc, State.cpuRead_setRing]
  rfl

/-- The operand fetch latches what the state held before the ring advanced; CR has no part in it. -/
theorem phase2_setRing (s : State) (r : Ring) :
    phase2 (s.setRing r) = { s with ar := s.cpuRead s.pc, pc := s.pc + 1#8, ring := r } := by
  rw [phase2, State.setRing_pc, State.cpuRead_setRing]
  rfl

/-- R280 at an instruction boundary: the ring moves to P1 and the opcode fetch runs. -/
theorem phaseStep_of_p3 {s : State} (hring : s.ring = .p3) (hreset : s.resetLine = false) :
    phaseStep s = .next (phase1 (s.setRing .p1)) := by
  simp [phaseStep, hring, hreset]

/-- R280 after the opcode fetch: the ring moves to P2 and the operand fetch runs. -/
theorem phaseStep_of_p1 {s : State} (hring : s.ring = .p1) (hreset : s.resetLine = false) :
    phaseStep s = .next (phase2 (s.setRing .p2)) := by
  simp [phaseStep, hring, hreset]

/-- Settles O6: from P3 the step is phase 1 under the advanced ring, whose action is the opcode fetch. -/
theorem phaseOneFetchesTheOpcode : Obligations.PhaseOneFetchesTheOpcode := by
  intro s hring hreset
  rw [phaseStep_of_p3 hring hreset, phase1_setRing]

/-- Settles O7: from P1 the step is phase 2 under the advanced ring, whose action consults no opcode. -/
theorem phaseTwoFetchesTheOperand : Obligations.PhaseTwoFetchesTheOperand := by
  intro s hring hreset
  rw [phaseStep_of_p1 hring hreset, phase2_setRing]

end Sys2Proof.Machine
end

section
/-! PROOFS. LOD and STO as whole instructions (spec/46_data_transfer.md R300, R301): the fetched pair decodes to the instruction, whose
third phase runs on the latches that the first two leave (R284). -/

namespace Sys2Proof.Machine

/-- P1 and P2 latch the pair that the next fetch yields (R281, R282). -/
theorem fetched_of_fetches {s : State} {op a : Byte} (h : s.fetches op a) :
    fetched s = { s with cr := op, ar := a, pc := s.pc + 2#8 } := by
  obtain ⟨hring, _, hop, harg⟩ := h
  rw [fetched, hop, harg, ← hring]

/-- R284 for a pair whose opcode is defined: the step is the instruction's own action, with CR and AR latched and PC past both bytes. -/
theorem step_of_fetches {s : State} {op a : Byte} {i : Instr} (h : s.fetches op a) (hdecode : decodePair op a = .ok i) :
    step s = exec i { s with cr := op, ar := a, pc := s.pc + 2#8 } := by
  have ⟨hring, hreset, _⟩ := h
  rw [step_of_boundary hring hreset, fetched_of_fetches h]
  exact phase3_of_decode hdecode

/-- R84: the byte a CPU write addresses takes the value, and keeps its own while takeover is true. -/
theorem State.memRead_cpuWrite_same {s : State} (hwf : s.mem.wf = true) (a v : Byte) :
    (s.cpuWrite a v).memRead a = if s.takeover then s.memRead a else v := by
  cases htake : s.takeover with
  | true => rw [cpuWrite_takeover_true htake]; rfl
  | false => rw [cpuWrite_takeover_false htake]; exact memRead_memWrite_same hwf a v

theorem exec_lod (a : Byte) (s : State) : exec (.lod a) s = .next (s.setAcc (s.cpuRead (effectiveAddress a))) := rfl

theorem exec_sto (a : Byte) (s : State) : exec (.sto a) s = .next (s.cpuWrite (effectiveAddress a) s.acc) := rfl

/-- Settles O28: the byte LOD reads does not depend on the latches, so it is the byte the Computer sees at `a` before the fetch. -/
theorem lodInstructionCycle : Obligations.LodInstructionCycle := by
  intro s a hfetch
  rw [step_of_fetches hfetch (decodePair_lod a), exec_lod]
  rfl

/-- Settles O29: the store is a CPU write on the latched state, so it can move only the byte at the effective address. It comes after
both fetches, so it cannot reach CR or AR even where that byte is one of the instruction's own. -/
theorem stoInstructionCycle : Obligations.StoInstructionCycle := by
  intro s a hfetch hwf
  refine ⟨_, (step_of_fetches hfetch (decodePair_sto a)).trans (exec_sto a _), ?cr, ?ar, ?pc, ?acc, ?ring, ?flags, ?hostSide,
    ?others, ?stored⟩
  case ring => exact (State.cpuWrite_ring ..).trans hfetch.1
  case others => exact fun b hb => State.memRead_cpuWrite_other _ _ hb
  case stored => exact State.memRead_cpuWrite_same (s := { s with cr := 0x11#8, ar := a, pc := s.pc + 2#8 }) hwf _ _
  case flags => simp [State.sameFlags]
  case hostSide => simp [State.sameHostSide]
  case cr | ar | pc | acc => simp

end Sys2Proof.Machine
end

section
/-! PROOFS. ADD and ADC as whole instructions (spec/47_arithmetic.md R312, R314). What ArithP3 does at the spec's parameter values is
said once for the four opcodes, as a function of the adder's total; the two additions then differ only in that total. -/

namespace Sys2Proof.Machine

theorem exec_add (a : Byte) (s : State) : exec (.add a) s = .next (arithP3 .add a s) := rfl

theorem exec_adc (a : Byte) (s : State) : exec (.adc a) s = .next (arithP3 .adc a s) := rfl

/-- R310, R311 at the spec's parameter values, as the whole next state: ACC takes the total modulo 256, and C is the adder's carry-out
for every opcode. -/
theorem arithP3_of_specArith {s : State} (h : s.specArith) (op : ArithOp) (a : Byte) {t : Nat}
    (ht : t = arithTotal .carryOut op s.acc (s.cpuRead a) s.c) :
    arithP3 op a s = { s with acc := arithSum t, z := zeroFlag (arithSum t), c := carryOut t } := by
  obtain ⟨hpolarity, hwriteback⟩ := h
  subst ht
  simp only [arithP3, writeback, State.setC_cfg, State.setZ_cfg, State.setAcc_cfg, hwriteback, hpolarity]
  rfl

/-- R284 with R310: an arithmetic instruction from its fetch to the next boundary. The latches are no part of the adder's inputs, so
the total is that of the state before the fetch. -/
theorem step_of_fetches_arith {s : State} {opcode a : Byte} {i : Instr} {op : ArithOp} {t : Nat} (hfetch : s.fetches opcode a)
    (hspec : s.specArith) (hdecode : decodePair opcode a = .ok i) (hexec : ∀ u, exec i u = .next (arithP3 op a u))
    (ht : t = arithTotal .carryOut op s.acc (s.cpuRead a) s.c) :
    step s = .next { s with
      cr := opcode
      ar := a
      pc := s.pc + 2#8
      acc := arithSum t
      z := zeroFlag (arithSum t)
      c := carryOut t } := by
  rw [step_of_fetches hfetch hdecode, hexec]
  exact congrArg Host.Outcome.next
    (arithP3_of_specArith (s := { s with cr := opcode, ar := a, pc := s.pc + 2#8 }) hspec op a ht)

/-- R312: ADD takes no carry-in, whatever the old C. -/
theorem arithTotal_add (p : BorrowPolarity) (acc m : Byte) (c : Bool) : arithTotal p .add acc m c = acc.toNat + m.toNat := rfl

/-- R314: ADC takes the old C as its carry-in. -/
theorem arithTotal_adc (p : BorrowPolarity) (acc m : Byte) (c : Bool) :
    arithTotal p .adc acc m c = acc.toNat + m.toNat + c.toNat := rfl

/-- The sum bus of two bytes is their sum as bytes (R179 at the CPU's width). -/
theorem arithSum_toNat_add (x y : Byte) : arithSum (x.toNat + y.toNat) = x + y := by
  simp [arithSum, BitVec.ofNat_add]

/-- A carry-in is one more summand of the byte sum. -/
theorem arithSum_add (t n : Nat) : arithSum (t + n) = arithSum t + BitVec.ofNat 8 n := BitVec.ofNat_add t n

/-- Settles O30: the general cycle at ADD's total, whose low byte is ACC + m. -/
theorem addInstructionCycle : Obligations.AddInstructionCycle := by
  intro s a hfetch hspec
  rw [step_of_fetches_arith hfetch hspec (decodePair_add a) (exec_add a) (arithTotal_add ..).symm, arithSum_toNat_add]
  rfl

/-- Settles O32: the general cycle at ADC's total, whose low byte is ACC + m with the old C added. -/
theorem adcInstructionCycle : Obligations.AdcInstructionCycle := by
  intro s a hfetch hspec
  rw [step_of_fetches_arith hfetch hspec (decodePair_adc a) (exec_adc a) (arithTotal_adc ..).symm, arithSum_add, arithSum_toNat_add]
  rfl

end Sys2Proof.Machine
end

section
/-! PROOFS. Control transfer as whole instructions (spec/48_control_transfer.md): the five jumps (R330 to R335) differ only in their
opcode and condition, so their cycle is proved once over the condition; an undefined opcode (R337) is one that the decoder rejects. -/

namespace Sys2Proof.Machine

/-- R104: the ranges of undefined opcodes hold no instruction's opcode. -/
@[simp] theorem undefinedOpcode_opcodeOf (i : Instr) : undefinedOpcode (opcodeOf i) = false := by
  cases i <;> rfl

/-- R104: the decoder rejects an undefined opcode whatever its operand byte. -/
theorem decodePair_of_undefinedOpcode {op : Byte} (h : undefinedOpcode op = true) (x : Byte) :
    decodePair op x = .error (.undefinedOpcode op) := by
  have hne : ∀ i : Instr, opcodeOf i ≠ op := by
    rintro i rfl
    simp at h
  exact (decodePair_error_iff op x _).mpr ⟨hne, rfl⟩

/-- R284 for a pair that the decoder rejects: the step is the two fetches alone. -/
theorem step_of_fetches_reject {s : State} {op a : Byte} {r : DecodeReject} (h : s.fetches op a)
    (hdecode : decodePair op a = .error r) : step s = .next { s with cr := op, ar := a, pc := s.pc + 2#8 } := by
  have ⟨hring, hreset, _⟩ := h
  rw [step_of_boundary hring hreset, fetched_of_fetches h]
  exact phase3_of_reject hdecode

/-- Settles O5: no decode line matches an undefined opcode, so the third phase has no action and the step is the two fetches. -/
theorem undefinedOpcodeIsANoOp : Obligations.UndefinedOpcodeIsANoOp := by
  intro s op a hfetch hundefined
  exact step_of_fetches_reject hfetch (decodePair_of_undefinedOpcode hundefined a)

theorem exec_jmp (a : Byte) (s : State) : exec (.jmp a) s = .next (jumpP3 .always a s) := rfl

theorem exec_jiz (a : Byte) (s : State) : exec (.jiz a) s = .next (jumpP3 .zero a s) := rfl

theorem exec_jic (a : Byte) (s : State) : exec (.jic a) s = .next (jumpP3 .carry a s) := rfl

theorem exec_jnz (a : Byte) (s : State) : exec (.jnz a) s = .next (jumpP3 .notZero a s) := rfl

theorem exec_jnc (a : Byte) (s : State) : exec (.jnc a) s = .next (jumpP3 .notCarry a s) := rfl

/-- R330 as one assignment to PC: a jump not taken writes back the PC that P2 left. -/
theorem jumpP3_eq_setPc (k : JumpCond) (a : Byte) (s : State) :
    jumpP3 k a s = s.setPc (if k.holds s.z s.c then a else s.pc) := by
  obtain ⟨htaken, heq⟩ | ⟨hnot, heq⟩ := jumpP3_cases k a s
  · rw [heq, if_pos htaken]
    rfl
  · rw [heq, hnot]
    rfl

/-- R284 with R330: a jump from its fetch to the next boundary, for any condition. The fetches write no flag, so the condition is on the
flags of the state before them (R288). -/
theorem step_of_fetches_jump {s : State} {opcode a : Byte} {i : Instr} {k : JumpCond} (hfetch : s.fetches opcode a)
    (hdecode : decodePair opcode a = .ok i) (hexec : ∀ u, exec i u = .next (jumpP3 k a u)) :
    step s = .next { s with cr := opcode, ar := a, pc := if k.holds s.z s.c then a else s.pc + 2#8 } := by
  rw [step_of_fetches hfetch hdecode, hexec, jumpP3_eq_setPc]
  rfl

/-- Settles O34: the general cycle of a jump at each of the five conditions. -/
theorem jumpInstructionCycles : Obligations.JumpInstructionCycles := by
  intro s a
  refine ⟨fun hjmp => ?jmp, fun hjiz => ?jiz, fun hjic => ?jic, fun hjnz => ?jnz, fun hjnc => ?jnc⟩
  case jmp => exact step_of_fetches_jump hjmp (decodePair_jmp a) (exec_jmp a)
  case jiz => exact step_of_fetches_jump hjiz (decodePair_jiz a) (exec_jiz a)
  case jic => exact step_of_fetches_jump hjic (decodePair_jic a) (exec_jic a)
  case jnz => exact step_of_fetches_jump hjnz (decodePair_jnz a) (exec_jnz a)
  case jnc => exact step_of_fetches_jump hjnc (decodePair_jnc a) (exec_jnc a)

end Sys2Proof.Machine
end

section
/-! PROOFS. The decoder and the encoder (spec/30_encoding.md R100 to R106). A pair decodes to an instruction exactly when its two bytes
are that instruction's opcode and operand; the rest of the family follows from this. -/

namespace Sys2Proof

/-- R103: the decode line of an opcode gives an instruction of that opcode, and its operand is the second byte. -/
theorem decodePair_opcodeOf_ok {i j : Instr} {x : Byte} (h : decodePair (opcodeOf j) x = .ok i) :
    opcodeOf i = opcodeOf j ∧ operandOf i = x := by
  cases j <;> (cases h; exact ⟨rfl, rfl⟩)

theorem decodePair_opcodeOf_operandOf (i : Instr) : decodePair (opcodeOf i) (operandOf i) = .ok i := by
  cases i <;> rfl

/-- R102, R103: a pair decodes to `i` exactly when it is the two bytes of `i`. -/
theorem decodePair_eq_ok_iff {op x : Byte} {i : Instr} : decodePair op x = .ok i ↔ op = opcodeOf i ∧ x = operandOf i := by
  constructor
  · intro h
    have hline : ∃ j : Instr, opcodeOf j = op := by
      by_contra hnone
      have hreject := (decodePair_error_iff op x (.undefinedOpcode op)).mpr ⟨not_exists.mp hnone, rfl⟩
      rw [h] at hreject
      cases hreject
    obtain ⟨j, rfl⟩ := hline
    obtain ⟨hop, hx⟩ := decodePair_opcodeOf_ok h
    exact ⟨hop.symm, hx.symm⟩
  · rintro ⟨rfl, rfl⟩
    exact decodePair_opcodeOf_operandOf i

/-- Decoding a sequence is decoding its first pair (R106): the bytes after it play no part and are left. -/
theorem decode_cons_cons_eq_ok_iff {op x : Byte} {bs rest : List Byte} {i : Instr} :
    decode (op :: x :: bs) = .ok (i, rest) ↔ decodePair op x = .ok i ∧ bs = rest := by
  cases h : decodePair op x <;> simp [decode, h]

/-- Settles O1: a sequence of at least two bytes decodes by its first pair, and a pair decodes to `i` exactly when it is the encoding of
`i`; a shorter sequence neither decodes nor holds an encoding. -/
theorem decodeAndEncodeAgree : Obligations.DecodeAndEncodeAgree := by
  intro bs rest i _
  match bs with
  | [] => simp [decode, encode]
  | [_] => simp [decode, encode]
  | op :: x :: bs => rw [decode_cons_cons_eq_ok_iff, decodePair_eq_ok_iff]; simp [encode, and_assoc]

/-- R102, R104: a byte outside the ranges of undefined opcodes is the opcode of an instruction. -/
theorem exists_opcodeOf_of_undefinedOpcode_eq_false {op : Byte} (h : Machine.undefinedOpcode op = false) :
    ∃ i : Instr, opcodeOf i = op := by
  have htwelve : op.toNat = 0x10 ∨ op.toNat = 0x11 ∨ op.toNat = 0x20 ∨ op.toNat = 0x21 ∨ op.toNat = 0x22 ∨ op.toNat = 0x23 ∨
      op.toNat = 0x30 ∨ op.toNat = 0x31 ∨ op.toNat = 0x32 ∨ op.toNat = 0x33 ∨ op.toNat = 0x34 ∨ op.toNat = 0xFF := by
    have hlt := op.isLt
    simp only [Machine.undefinedOpcode, Bool.or_eq_false_iff, Bool.and_eq_false_iff, decide_eq_false_iff_not] at h
    omega
  have named (i : Instr) (hi : op.toNat = (opcodeOf i).toNat) : ∃ i : Instr, opcodeOf i = op := ⟨i, (BitVec.eq_of_toNat_eq hi).symm⟩
  rcases htwelve with h | h | h | h | h | h | h | h | h | h | h | h
  · exact named (.lod 0#8) h
  · exact named (.sto 0#8) h
  · exact named (.add 0#8) h
  · exact named (.sub 0#8) h
  · exact named (.adc 0#8) h
  · exact named (.sbb 0#8) h
  · exact named (.jmp 0#8) h
  · exact named (.jiz 0#8) h
  · exact named (.jic 0#8) h
  · exact named (.jnz 0#8) h
  · exact named (.jnc 0#8) h
  · exact named (.hlt 0#8) h

/-- R104: outside those ranges every pair decodes. -/
theorem exists_decodePair_of_undefinedOpcode_eq_false {op : Byte} (h : Machine.undefinedOpcode op = false) (x : Byte) :
    ∃ i, decodePair op x = .ok i := by
  obtain ⟨i, rfl⟩ := exists_opcodeOf_of_undefinedOpcode_eq_false h
  cases i <;> exact ⟨_, rfl⟩

/-- Settles O2: the rejected pairs and the decoded ones are disjoint, and the ranges of R104 and the twelve opcodes cover every byte, so
each clause follows from the one inclusion that the ranges give. -/
theorem undefinedOpcodesAreRejectedByName : Obligations.UndefinedOpcodesAreRejectedByName := by
  refine ⟨fun op x => ⟨fun hreject => ?rejected, fun hundef => Machine.decodePair_of_undefinedOpcode hundef x⟩,
    fun op x => ⟨fun ⟨i, hi⟩ => ?decoded, fun hdef => exists_decodePair_of_undefinedOpcode_eq_false hdef x⟩, ?count⟩
  case rejected =>
    by_contra hdef
    obtain ⟨i, hi⟩ := exists_decodePair_of_undefinedOpcode_eq_false (Bool.eq_false_of_not_eq_true hdef) x
    rw [hi] at hreject
    cases hreject
  case decoded => rw [(decodePair_eq_ok_iff.mp hi).1, Machine.undefinedOpcode_opcodeOf]
  case count => decide +kernel

/-- Settles O3: the decoder evaluated on the five words. -/
theorem wordsFromTheTableDecode : Obligations.WordsFromTheTableDecode := ⟨rfl, rfl, rfl, rfl, rfl⟩

end Sys2Proof
end

section
/-! PROOFS. What a third phase, a phase step and a whole step can do, said once (spec/45_instruction_cycle.md R280 to R286): every third
phase completes, a phase step moves the ring by one place, and whatever relation each phase step keeps, the whole step keeps. The
whole-machine rules are read off these. -/

namespace Sys2Proof.Machine

theorem exec_sub (a : Byte) (s : State) : exec (.sub a) s = .next (arithP3 .sub a s) := rfl

theorem exec_sbb (a : Byte) (s : State) : exec (.sbb a) s = .next (arithP3 .sbb a s) := rfl

theorem exec_hlt (x : Byte) (s : State) : exec (.hlt x) s = .next s := rfl

/-- The five things a defined opcode's third phase can be (R283): every one answers a next state. -/
theorem exec_cases (i : Instr) :
    (∃ a, i = .lod a ∧ ∀ s, exec i s = .next (s.setAcc (s.cpuRead (effectiveAddress a)))) ∨
      (∃ a, i = .sto a ∧ ∀ s, exec i s = .next (s.cpuWrite (effectiveAddress a) s.acc)) ∨
      (∃ op a, i.isArith = true ∧ ∀ s, exec i s = .next (arithP3 op a s)) ∨
      (∃ k a, ∀ s, exec i s = .next (jumpP3 k a s)) ∨
      (∃ x, i = .hlt x ∧ ∀ s, exec i s = .next s) := by
  cases i with
  | lod a => exact .inl ⟨a, rfl, exec_lod a⟩
  | sto a => exact .inr (.inl ⟨a, rfl, exec_sto a⟩)
  | add a => exact .inr (.inr (.inl ⟨.add, a, rfl, exec_add a⟩))
  | sub a => exact .inr (.inr (.inl ⟨.sub, a, rfl, exec_sub a⟩))
  | adc a => exact .inr (.inr (.inl ⟨.adc, a, rfl, exec_adc a⟩))
  | sbb a => exact .inr (.inr (.inl ⟨.sbb, a, rfl, exec_sbb a⟩))
  | jmp a => exact .inr (.inr (.inr (.inl ⟨.always, a, exec_jmp a⟩)))
  | jiz a => exact .inr (.inr (.inr (.inl ⟨.zero, a, exec_jiz a⟩)))
  | jic a => exact .inr (.inr (.inr (.inl ⟨.carry, a, exec_jic a⟩)))
  | jnz a => exact .inr (.inr (.inr (.inl ⟨.notZero, a, exec_jnz a⟩)))
  | jnc a => exact .inr (.inr (.inr (.inl ⟨.notCarry, a, exec_jnc a⟩)))
  | hlt x => exact .inr (.inr (.inr (.inr ⟨x, rfl, exec_hlt x⟩)))

/-! ### Frames. -/

theorem State.sameHostSide_refl (s : State) : s.sameHostSide s := ⟨rfl, rfl, rfl, rfl, rfl, rfl, rfl⟩

theorem State.sameHostSide_trans {s t u : State} (h : s.sameHostSide t) (h' : t.sameHostSide u) : s.sameHostSide u := by
  simp_all [State.sameHostSide]

/-- What every third phase leaves alone, whatever its opcode; `lost` is R84's clause on a CPU write under takeover. -/
structure Phase3Frame (s t : State) : Prop where
  cycle : s.sameCycle t
  hostSide : s.sameHostSide t
  wf : s.mem.wf = true → t.mem.wf = true
  lost : s.takeover = true → t.mem = s.mem

theorem Phase3Frame.refl (s : State) : Phase3Frame s s := ⟨⟨rfl, rfl, rfl⟩, s.sameHostSide_refl, id, fun _ => rfl⟩

theorem phase3Frame_setAcc (s : State) (v : Byte) : Phase3Frame s (s.setAcc v) :=
  ⟨⟨rfl, rfl, rfl⟩, s.sameHostSide_refl, id, fun _ => rfl⟩

theorem phase3Frame_cpuWrite (s : State) (a v : Byte) : Phase3Frame s (s.cpuWrite a v) where
  cycle := by simp [State.sameCycle]
  hostSide := by simp [State.sameHostSide]
  wf h := State.cpuWrite_wf h a v
  lost h := by rw [State.cpuWrite_takeover_true h]

/-- A write-back is a CPU write, so takeover loses it as well. -/
theorem arithP3_mem_of_takeover (op : ArithOp) (a : Byte) {s : State} (h : s.takeover = true) : (arithP3 op a s).mem = s.mem := by
  unfold arithP3
  rcases writeback_cases _ a _ with ⟨_, hw⟩ | ⟨_, hw⟩
  · rw [hw]; rfl
  · rw [hw, State.cpuWrite_takeover_true (by exact h)]; rfl

theorem phase3Frame_arithP3 (op : ArithOp) (a : Byte) (s : State) : Phase3Frame s (arithP3 op a s) where
  cycle := by simp [State.sameCycle]
  hostSide := by simp [State.sameHostSide]
  wf := arithP3_wf op a s
  lost := arithP3_mem_of_takeover op a

theorem phase3Frame_jumpP3 (k : JumpCond) (a : Byte) (s : State) : Phase3Frame s (jumpP3 k a s) where
  cycle := by simp [State.sameCycle]
  hostSide := by simp [State.sameHostSide]
  wf h := by simpa using h
  lost _ := jumpP3_mem k a s

theorem exec_completes (i : Instr) (s : State) : ∃ t, exec i s = .next t ∧ Phase3Frame s t := by
  obtain ⟨a, _, h⟩ | ⟨a, _, h⟩ | ⟨op, a, _, h⟩ | ⟨k, a, h⟩ | ⟨x, _, h⟩ := exec_cases i
  · exact ⟨_, h s, phase3Frame_setAcc s _⟩
  · exact ⟨_, h s, phase3Frame_cpuWrite s _ _⟩
  · exact ⟨_, h s, phase3Frame_arithP3 op a s⟩
  · exact ⟨_, h s, phase3Frame_jumpP3 k a s⟩
  · exact ⟨_, h s, .refl s⟩

/-- R283, R105: the third phase completes on every byte in CR. -/
theorem phase3_completes (s : State) : ∃ t, phase3 s = .next t ∧ Phase3Frame s t := by
  cases h : decodePair s.cr s.ar with
  | ok i => rw [phase3_of_decode h]; exact exec_completes i s
  | error r => exact ⟨s, phase3_of_reject h, .refl s⟩

/-- What a phase step that answers leaves alone, and where it moves the ring. -/
structure PhaseFrame (s t : State) : Prop where
  ring : t.ring = s.ring.next
  hostSide : s.sameHostSide t
  wf : s.mem.wf = true → t.mem.wf = true
  lost : s.takeover = true → t.mem = s.mem

theorem phaseStep_frame {s t : State} (h : phaseStep s = .next t) : PhaseFrame s t := by
  obtain ⟨_, ⟨hr, _, rfl⟩ | ⟨hr, rfl⟩ | ⟨hr, rfl⟩ | ⟨hr, h3⟩⟩ := phaseStep_cases h
  · exact ⟨by simp [hr], t.sameHostSide_refl, id, fun _ => rfl⟩
  · rw [phase1_setRing]; exact ⟨by simp [hr], s.sameHostSide_refl, id, fun _ => rfl⟩
  · rw [phase2_setRing]; exact ⟨by simp [hr], s.sameHostSide_refl, id, fun _ => rfl⟩
  · obtain ⟨u, hu, hframe⟩ := phase3_completes (s.setRing .p3)
    obtain rfl : u = t := Host.Outcome.next.inj (hu.symm.trans h3)
    obtain ⟨_, _, hring⟩ := hframe.cycle
    exact ⟨by rw [hring, hr]; rfl, hframe.hostSide, hframe.wf, hframe.lost⟩

/-- R280 after the operand fetch: the ring moves to P3 and the third phase runs. -/
theorem phaseStep_of_p2 {s : State} (hring : s.ring = .p2) (hreset : s.resetLine = false) : phaseStep s = phase3 (s.setRing .p3) := by
  simp [phaseStep, hring, hreset]

/-- R280: with reset released a phase step from one of P1, P2, P3 answers. -/
theorem phaseStep_completes {s : State} (hring : s.ring ≠ .none) (hreset : s.resetLine = false) :
    ∃ t, phaseStep s = .next t ∧ PhaseFrame s t := by
  suffices h : ∃ t, phaseStep s = .next t from h.imp fun _ ht => ⟨ht, phaseStep_frame ht⟩
  cases hr : s.ring with
  | none => exact absurd hr hring
  | p3 => exact ⟨_, phaseStep_of_p3 hr hreset⟩
  | p1 => exact ⟨_, phaseStep_of_p1 hr hreset⟩
  | p2 =>
    obtain ⟨t, ht, _⟩ := phase3_completes (s.setRing .p3)
    exact ⟨t, (phaseStep_of_p2 hr hreset).trans ht⟩

/-- From a live ring with reset released, what follows a phase step is again a live ring with reset released. -/
theorem PhaseFrame.live {s t : State} (h : PhaseFrame s t) (hring : s.ring ≠ .none) (hreset : s.resetLine = false) :
    t.ring ≠ .none ∧ t.resetLine = false := by
  have ⟨_, _, _, _, hline, _⟩ := h.hostSide
  exact ⟨by rwa [h.ring, ne_eq, Ring.next_eq_none], hline.trans hreset⟩

/-- A relation that every phase step keeps, and that composes, is kept by every step (log 1). -/
theorem step_induction {R : State → State → Prop} (hphase : ∀ s t, phaseStep s = .next t → R s t)
    (htrans : ∀ s t u, R s t → R t u → R s u) {s t : State} (h : step s = .next t) : R s t := by
  unfold step instructionStep at h
  split at h
  · exact hphase s t h
  · obtain ⟨u, hu, h⟩ := andThen_eq_next.mp h
    obtain ⟨w, hw, h⟩ := andThen_eq_next.mp h
    exact htrans s u t (hphase s u hu) (htrans u w t (hphase u w hw) (hphase w t h))
  · obtain ⟨u, hu, h⟩ := andThen_eq_next.mp h
    exact htrans s u t (hphase s u hu) (hphase u t h)
  · exact hphase s t h

/-! ### The whole-machine rules. -/

theorem State.good_iff {s : State} : s.good = true ↔ s.mem.wf = true ∧ s.ring ≠ .none ∧ s.resetLine = false := by
  simp [State.good, and_assoc]

/-- R36 for one phase: the ring shifts among its three places. -/
theorem phaseStep_good {s t : State} (hgood : s.good = true) (h : phaseStep s = .next t) : t.good = true := by
  have hframe := phaseStep_frame h
  obtain ⟨hwf, hring, hreset⟩ := State.good_iff.mp hgood
  exact State.good_iff.mpr ⟨hframe.wf hwf, hframe.live hring hreset⟩

/-- Settles O11: one phase keeps a good state good, and a step is a sequence of phases. -/
theorem stepsKeepTheGoodState : Obligations.StepsKeepTheGoodState := by
  rintro s t hgood (hstep | hphase)
  · exact step_induction (R := fun s t => s.good = true → t.good = true) (fun _ _ h hg => phaseStep_good hg h)
      (fun _ _ _ h h' hg => h' (h hg)) hstep hgood
  · exact phaseStep_good hgood hphase

/-- Settles O13: no phase writes the host's side, and a step is a sequence of phases. -/
theorem onlyTheHostChangesTheHostSide : Obligations.OnlyTheHostChangesTheHostSide := by
  rintro s t (hstep | hphase)
  · exact step_induction (fun _ _ h => (phaseStep_frame h).hostSide) (fun _ _ _ => State.sameHostSide_trans) hstep
  · exact (phaseStep_frame hphase).hostSide

/-- Settles O8: every phase from a live ring answers and shifts the ring, and the phases from any place of it up to P3 make the step. -/
theorem everyInstructionCompletes : Obligations.EveryInstructionCompletes := by
  intro s hring hreset
  obtain ⟨t1, h1, hf1⟩ := phaseStep_completes hring hreset
  obtain ⟨hring1, hreset1⟩ := hf1.live hring hreset
  obtain ⟨t2, h2, hf2⟩ := phaseStep_completes hring1 hreset1
  obtain ⟨hring2, hreset2⟩ := hf2.live hring1 hreset1
  obtain ⟨t3, h3, hf3⟩ := phaseStep_completes hring2 hreset2
  cases hr : s.ring with
  | none => exact absurd hr hring
  | p3 => exact ⟨t3, by simp [step, instructionStep, hr, h1, h2, h3], by rw [hf3.ring, hf2.ring, hf1.ring, hr]; rfl⟩
  | p1 => exact ⟨t2, by simp [step, instructionStep, hr, h1, h2], by rw [hf2.ring, hf1.ring, hr]; rfl⟩
  | p2 => exact ⟨t1, by simp [step, instructionStep, hr, h1], by rw [hf1.ring, hr]; rfl⟩

/-- Settles O14: of the five kinds of third phase only the arithmetic one has a flag to write. -/
theorem onlyArithmeticWritesTheFlags : Obligations.OnlyArithmeticWritesTheFlags := by
  intro i s hi
  obtain ⟨a, _, h⟩ | ⟨a, _, h⟩ | ⟨op, a, harith, _⟩ | ⟨k, a, h⟩ | ⟨x, _, h⟩ := exec_cases i
  · exact ⟨_, h s, rfl, rfl⟩
  · exact ⟨_, h s, State.cpuWrite_z .., State.cpuWrite_c ..⟩
  · exact absurd (hi.symm.trans harith) Bool.false_ne_true
  · exact ⟨_, h s, jumpP3_z .., jumpP3_c ..⟩
  · exact ⟨_, h s, rfl, rfl⟩

/-- Settles O15: of the five kinds of third phase only STO and the write-back store, and the two fetches store nothing. -/
theorem onlyStoWritesMemory : Obligations.OnlyStoWritesMemory := by
  refine ⟨fun i s hwriteback hsto => ?third, fun s t hring h => ?fetch⟩
  case third =>
    obtain ⟨a, _, h⟩ | ⟨a, hi, _⟩ | ⟨op, a, _, h⟩ | ⟨k, a, h⟩ | ⟨x, _, h⟩ := exec_cases i
    · exact ⟨_, h s, rfl⟩
    · exact absurd hi (hsto a)
    · exact ⟨_, h s, arithP3_mem op a s hwriteback⟩
    · exact ⟨_, h s, jumpP3_mem k a s⟩
    · exact ⟨_, h s, rfl⟩
  case fetch =>
    obtain ⟨_, ⟨hr, _⟩ | ⟨_, rfl⟩ | ⟨_, rfl⟩ | ⟨hr, _⟩⟩ := phaseStep_cases h
    · simp [hr] at hring
    · rw [phase1_setRing]
    · rw [phase2_setRing]
    · simp [hr] at hring

/-- Settles O44: CpuRead and CpuWrite are defined by cases on takeover, which no phase moves, so no phase of the step stores. -/
theorem takeoverReroutesTheComputer : Obligations.TakeoverReroutesTheComputer := by
  refine ⟨fun s a v htake => ⟨State.cpuRead_takeover_true htake a, State.cpuWrite_takeover_true htake a v⟩,
    fun s a v htake hwf => ⟨State.cpuRead_takeover_false htake a, ?stored, fun b hb => State.memRead_cpuWrite_other s v hb⟩,
    fun s t htake h => ?whole⟩
  case stored => rw [State.memRead_cpuWrite_same hwf, htake]; rfl
  case whole =>
    have hkept := step_induction (R := fun s t => s.takeover = true → t.takeover = true ∧ t.mem = s.mem)
      (fun s t h ht => ⟨(phaseStep_frame h).hostSide.1.trans ht, (phaseStep_frame h).lost ht⟩)
      (fun s t u hst htu hs => ⟨(htu (hst hs).1).1, (htu (hst hs).1).2.trans (hst hs).2⟩) h
    exact (hkept htake).2

/-! ### The cycle at its edges: decoding, reset held, and no reset yet. -/

/-- Settles O4: the step from a boundary is the third phase on the fetched state, where CR and AR hold the pair that decodes. -/
theorem stepRunsTheDecodedInstruction : Obligations.StepRunsTheDecodedInstruction := by
  intro s i hring hreset _ hdecode
  rw [step_of_boundary hring hreset]
  exact phase3_of_decode (s := fetched s) (decode_cons_cons_eq_ok_iff.mp hdecode).1

theorem phaseStep_of_resetLine {s : State} (h : s.resetLine = true) : phaseStep s = .refused .clockWithResetHeld := by
  simp [phaseStep, h]

/-- Every step begins with a phase step, so it is refused where that is. -/
theorem step_of_phaseStep_refused {s : State} {r : Refusal} (h : phaseStep s = .refused r) : step s = .refused r := by
  unfold step instructionStep
  split <;> simp [h]

/-- Settles O9: the reset line is tested before the ring is consulted, and the step's first phase meets that test. -/
theorem clockingWithResetHeldIsRefused : Obligations.ClockingWithResetHeldIsRefused := fun _ h =>
  ⟨phaseStep_of_resetLine h, step_of_phaseStep_refused (phaseStep_of_resetLine h)⟩

theorem phaseStep_of_none {s : State} (hring : s.ring = .none) (hreset : s.resetLine = false) : phaseStep s = unresetStep s := by
  simp [phaseStep, hring, hreset]

/-- With no output of the ring true there is no boundary to run to: the step is the one phase step. -/
theorem step_of_none {s : State} (hring : s.ring = .none) : step s = phaseStep s := by
  simp [step, instructionStep, hring]

/-- Settles O10: both the phase step and the step come down to the clause that P_PRE_RESET_CLOCK chooses. -/
theorem clockingBeforeTheFirstReset : Obligations.ClockingBeforeTheFirstReset := by
  intro s hring hreset
  rw [step_of_none hring, phaseStep_of_none hring hreset]
  exact ⟨fun hrefuse => by simp [unresetStep, hrefuse], fun hidle => by simp [unresetStep, hidle]⟩

/-- Settles O12: the reset state's memory is empty, its ring P3 and its reset line released. -/
theorem resetStateIsGood : Obligations.ResetStateIsGood := State.good_iff.mpr ⟨reset_mem_wf, by decide, rfl⟩

end Sys2Proof.Machine
end

section
/-! PROOFS. The third phases one by one (spec/46_data_transfer.md, 47_arithmetic.md, 48_control_transfer.md), the remaining whole
instructions, and 16-bit arithmetic across instructions (R317). The two subtractions are reduced to a total in closed form, ACC + 256 − m
less the pending borrow, from which sum, carry and borrow are read. -/

namespace Sys2Proof.Machine

/-! ### LOD and STO. -/

/-- Settles O16: LOD sets ACC alone. -/
theorem lodLoadsTheAccumulator : Obligations.LodLoadsTheAccumulator := fun a s =>
  ⟨_, exec_lod a s, rfl, rfl, ⟨rfl, rfl⟩, ⟨rfl, rfl, rfl⟩, s.sameHostSide_refl, fun _ => rfl⟩

/-- Settles O17: STO is a CPU write of ACC. -/
theorem stoStoresTheAccumulator : Obligations.StoStoresTheAccumulator := by
  intro a s hwf
  have ⟨hcycle, hside, _, _⟩ := phase3Frame_cpuWrite s (effectiveAddress a) s.acc
  refine ⟨_, exec_sto a s, State.cpuWrite_acc .., State.cpuWrite_pc .., ⟨State.cpuWrite_z .., State.cpuWrite_c ..⟩, hcycle, hside,
    fun htake => ⟨?stored, fun b hb => State.memRead_cpuWrite_other s s.acc hb⟩, fun htake b => ?lost⟩
  case stored => rw [State.memRead_cpuWrite_same hwf, htake]; rfl
  case lost => rw [State.cpuWrite_takeover_true htake]

/-! ### The arithmetic unit's totals and flags (R310, R311). -/

/-- R311: SUB's and SBB's carry-in and the pending borrow are complementary, under either polarity. -/
theorem carryIn_sbb_add_pendingBorrow (p : BorrowPolarity) (c : Bool) : (carryIn p .sbb c).toNat + pendingBorrow p c = 1 := by
  cases p <;> cases c <;> rfl

/-- R313: adding the one's complement and 1 is adding 256 − m. -/
theorem arithTotal_sub (p : BorrowPolarity) (acc m : Byte) (c : Bool) : arithTotal p .sub acc m c = acc.toNat + 256 - m.toNat := by
  have hm := m.isLt
  simp only [arithTotal, ArithOp.inverts, invertIf_true_toNat, carryIn, Bool.toNat_true]
  omega

/-- R315: adding the one's complement and the complement of the pending borrow. -/
theorem arithTotal_sbb (p : BorrowPolarity) (acc m : Byte) (c : Bool) :
    arithTotal p .sbb acc m c = acc.toNat + 256 - m.toNat - pendingBorrow p c := by
  have hm := m.isLt
  have hborrow := carryIn_sbb_add_pendingBorrow p c
  simp only [arithTotal, ArithOp.inverts, invertIf_true_toNat]
  omega

/-- R311: an addition's C is its carry-out, under either polarity. -/
theorem carryFlag_of_not_inverts (p : BorrowPolarity) {op : ArithOp} (h : op.inverts = false) (cout : Bool) :
    carryFlag p op cout = cout := by
  cases p <;> simp [carryFlag, h]

/-- R311: a subtraction's C is its carry-out under carry_out. -/
theorem carryFlag_carryOut (op : ArithOp) (cout : Bool) : carryFlag .carryOut op cout = cout := rfl

/-- R311: a subtraction's C is the complement of its carry-out under borrow. -/
theorem carryFlag_borrow_of_inverts {op : ArithOp} (h : op.inverts = true) (cout : Bool) : carryFlag .borrow op cout = !cout := by
  simp [carryFlag, h]

section
variable {op : ArithOp} {a : Byte} {s : State} {t : Nat} (ht : arithTotal s.cfg.borrowPolarity op s.acc (s.cpuRead a) s.c = t)
include ht

/-- R310: ACC is the total modulo 256. -/
theorem arithP3_acc_toNat : (arithP3 op a s).acc.toNat = t % 256 := by
  subst ht
  rw [arithP3_acc, arithSum_toNat]
  rfl

/-- R311 of an addition: C iff the total is 256 or more. -/
theorem arithP3_c_of_addition (hop : op.inverts = false) : (arithP3 op a s).c = true ↔ 256 ≤ t := by
  subst ht
  rw [arithP3_c, carryFlag_of_not_inverts _ hop, carryOut_eq_true]
  rfl

/-- R311 of a subtraction under carry_out: C iff the total is 256 or more. -/
theorem arithP3_c_of_carryOut (hp : s.cfg.borrowPolarity = .carryOut) : (arithP3 op a s).c = true ↔ 256 ≤ t := by
  subst ht
  rw [arithP3_c, hp, carryFlag_carryOut, carryOut_eq_true]
  rfl

/-- R311 of a subtraction under borrow: C iff the total is below 256. -/
theorem arithP3_c_of_borrow (hop : op.inverts = true) (hp : s.cfg.borrowPolarity = .borrow) : (arithP3 op a s).c = true ↔ t < 256 := by
  subst ht
  rw [arithP3_c, hp, carryFlag_borrow_of_inverts hop, Bool.not_eq_true', ← Bool.not_eq_true, carryOut_eq_true, Nat.not_le]
  rfl

end

/-- R311: Z is the zero test of the new ACC. -/
theorem arithP3_z_eq_true (op : ArithOp) (a : Byte) (s : State) :
    (arithP3 op a s).z = true ↔ (arithP3 op a s).acc.toNat = 0 := by
  rw [arithP3_z, arithP3_acc, zeroFlag_eq_true]

/-- R318: with P_ARITH_WRITEBACK, ArithP3 ends in a CPU write of the sum, on a state whose memory it has not touched. -/
theorem arithP3_of_writeback (op : ArithOp) (a : Byte) {s : State} (h : s.cfg.arithWriteback = true) :
    ∃ d : State, arithP3 op a s = d.cpuWrite (effectiveAddress a) (arithP3 op a s).acc ∧ d.mem = s.mem ∧ d.takeover = s.takeover := by
  rw [arithP3_acc]
  exact ⟨_, if_pos h, rfl, rfl⟩

/-- R310, R318: the frame of ArithP3, at every parameter value: the write-back is the one store, and takeover loses it. -/
theorem arithP3_frame (op : ArithOp) (a : Byte) (s : State) : s.arithFrame a (arithP3 op a s) := by
  have ⟨hcycle, hside, _, hlost⟩ := phase3Frame_arithP3 op a s
  suffices h : s.sameMemoryBut (effectiveAddress a) (arithP3 op a s) ∧
      if s.cfg.arithWriteback && !s.takeover then
        s.mem.wf = true → (arithP3 op a s).memRead (effectiveAddress a) = (arithP3 op a s).acc
      else s.sameMemory (arithP3 op a s) from ⟨arithP3_pc op a s, hcycle, hside, h⟩
  by_cases hstore : s.cfg.arithWriteback = true ∧ s.takeover = false
  · obtain ⟨d, heq, hmem, hline⟩ := arithP3_of_writeback op a hstore.1
    rw [if_pos (by simpa using hstore)]
    refine ⟨fun b hb => ?others, fun hwf => ?stored⟩
    case others => rw [heq, State.memRead_cpuWrite_other d _ hb, State.memRead_congr hmem]
    case stored =>
      conv_lhs => rw [heq]
      rw [State.memRead_cpuWrite_same (hmem ▸ hwf), hline, hstore.2]
      rfl
  · have hmem : (arithP3 op a s).mem = s.mem := by
      rcases Bool.eq_false_or_eq_true s.takeover with htake | htake
      · exact hlost htake
      · exact arithP3_mem op a s (Bool.eq_false_of_not_eq_true fun hback => hstore ⟨hback, htake⟩)
    rw [if_neg (by simpa using hstore)]
    exact ⟨fun b _ => State.memRead_congr hmem b, fun b => State.memRead_congr hmem b⟩

/-- Settles O18: ADD's total is ACC + m. -/
theorem addAddsTheOperand : Obligations.AddAddsTheOperand := fun a s =>
  ⟨_, exec_add a s, arithP3_acc_toNat (arithTotal_add ..), arithP3_z_eq_true .add a s,
    arithP3_c_of_addition (arithTotal_add ..) rfl, arithP3_frame .add a s⟩

/-- Settles O20: ADC's total is ACC + m with the old C. -/
theorem adcAddsTheOperandAndTheCarry : Obligations.AdcAddsTheOperandAndTheCarry := fun a s =>
  ⟨_, exec_adc a s, arithP3_acc_toNat (arithTotal_adc ..), arithP3_z_eq_true .adc a s,
    arithP3_c_of_addition (arithTotal_adc ..) rfl, arithP3_frame .adc a s⟩

/-- Settles O19: SUB's total is ACC + 256 − m, which reaches 256 exactly when nothing is borrowed. -/
theorem subSubtractsTheOperand : Obligations.SubSubtractsTheOperand := by
  intro a s
  have htotal := arithTotal_sub s.cfg.borrowPolarity s.acc (s.cpuRead a) s.c
  refine ⟨_, exec_sub a s, arithP3_acc_toNat htotal, arithP3_z_eq_true .sub a s, fun hp => ?carryOut, fun hp => ?borrow,
    arithP3_frame .sub a s⟩
  case carryOut => rw [arithP3_c_of_carryOut htotal hp]; omega
  case borrow => rw [arithP3_c_of_borrow htotal rfl hp]; omega

/-- Settles O21: SBB's total is ACC + 256 − m less the pending borrow, which reaches 256 exactly when nothing more is borrowed. -/
theorem sbbSubtractsTheOperandAndTheBorrow : Obligations.SbbSubtractsTheOperandAndTheBorrow := by
  intro a s
  have htotal := arithTotal_sbb s.cfg.borrowPolarity s.acc (s.cpuRead a) s.c
  have hm := (s.cpuRead a).isLt
  have hborrow := carryIn_sbb_add_pendingBorrow s.cfg.borrowPolarity s.c
  refine ⟨_, exec_sbb a s, ?acc, arithP3_z_eq_true .sbb a s, fun hp => ?carryOut, fun hp => ?borrow, arithP3_frame .sbb a s⟩
  case acc => rw [arithP3_acc_toNat htotal]; omega
  case carryOut => rw [arithP3_c_of_carryOut htotal hp]; omega
  case borrow => rw [arithP3_c_of_borrow htotal rfl hp]; omega

/-! ### SUB, SBB and HLT as whole instructions. -/

/-- The low byte of x + 256 − y is the difference of the bytes. -/
theorem arithSum_toNat_sub (x y : Byte) : arithSum (x.toNat + 256 - y.toNat) = x - y := by
  have hy := y.isLt
  refine BitVec.eq_of_toNat_eq ?_
  rw [arithSum_toNat, BitVec.toNat_sub]
  omega

/-- A pending borrow is one more byte subtracted; the total does not underflow (R310: t is in 0 to 511). -/
theorem arithSum_toNat_sub_borrow (x y : Byte) (b : Bool) :
    arithSum (x.toNat + 256 - y.toNat - b.toNat) = x - y - BitVec.ofNat 8 b.toNat := by
  have hy := y.isLt
  have hb := b.toNat_le
  refine BitVec.eq_of_toNat_eq ?_
  rw [arithSum_toNat, BitVec.toNat_sub, BitVec.toNat_sub, BitVec.toNat_ofNat]
  omega

theorem zeroFlag_sub (x y : Byte) : zeroFlag (x - y) = decide (x = y) := by
  have hx := x.isLt
  have hy := y.isLt
  rw [Bool.eq_iff_iff, zeroFlag_eq_true, decide_eq_true_iff, ← BitVec.toNat_inj, BitVec.toNat_sub]
  omega

/-- Settles O31: the general arithmetic cycle at SUB's total. -/
theorem subInstructionCycle : Obligations.SubInstructionCycle := by
  intro s a hfetch hspec
  have hcarry : carryOut (s.acc.toNat + 256 - (s.cpuRead a).toNat) = decide ((s.cpuRead a).toNat ≤ s.acc.toNat) :=
    decide_eq_decide.mpr (by omega)
  rw [step_of_fetches_arith hfetch hspec (decodePair_sub a) (exec_sub a) (arithTotal_sub ..).symm, arithSum_toNat_sub, zeroFlag_sub,
    hcarry]

/-- Settles O33: the general arithmetic cycle at SBB's total, where the pending borrow under carry_out is the complement of C. -/
theorem sbbInstructionCycle : Obligations.SbbInstructionCycle := by
  intro s a hfetch hspec
  have hm := (s.cpuRead a).isLt
  have hb := (!s.c).toNat_le
  have hcarry : carryOut (s.acc.toNat + 256 - (s.cpuRead a).toNat - (!s.c).toNat) =
      decide ((s.cpuRead a).toNat + (!s.c).toNat ≤ s.acc.toNat) := decide_eq_decide.mpr (by omega)
  rw [step_of_fetches_arith hfetch hspec (decodePair_sbb a) (exec_sbb a) (arithTotal_sbb ..).symm, pendingBorrow,
    arithSum_toNat_sub_borrow, hcarry]
  rfl

/-- Settles O35: HLT's third phase is the identity, so the step is the two fetches. -/
theorem hltInstructionCycle : Obligations.HltInstructionCycle := by
  intro s x hfetch
  rw [step_of_fetches hfetch (decodePair_hlt x), exec_hlt]

/-! ### The jumps and HLT as third phases. -/

/-- R330: a jump's third phase moves PC alone. -/
theorem jumpP3_frame (k : JumpCond) (a : Byte) (s : State) :
    (jumpP3 k a s).pc = (if k.holds s.z s.c then a else s.pc) ∧ s.jumpFrame (jumpP3 k a s) := by
  rw [jumpP3_eq_setPc]
  exact ⟨rfl, rfl, ⟨rfl, rfl⟩, ⟨rfl, rfl, rfl⟩, s.sameHostSide_refl, rfl⟩

/-- Settles O22: the condition of JMP is true. -/
theorem jmpAlwaysJumps : Obligations.JmpAlwaysJumps := fun a s => ⟨_, exec_jmp a s, jumpP3_frame .always a s⟩

/-- Settles O23: the condition of JIZ is Z. -/
theorem jizJumpsOnZero : Obligations.JizJumpsOnZero := fun a s => ⟨_, exec_jiz a s, jumpP3_frame .zero a s⟩

/-- Settles O24: the condition of JIC is C. -/
theorem jicJumpsOnCarry : Obligations.JicJumpsOnCarry := fun a s => ⟨_, exec_jic a s, jumpP3_frame .carry a s⟩

/-- Settles O25: the condition of JNZ is the complement of Z. -/
theorem jnzJumpsOnNotZero : Obligations.JnzJumpsOnNotZero := by
  intro a s
  have h := jumpP3_frame .notZero a s
  simp only [JumpCond.holds, Bool.not_eq_true'] at h
  exact ⟨_, exec_jnz a s, h⟩

/-- Settles O26: the condition of JNC is the complement of C. -/
theorem jncJumpsOnNotCarry : Obligations.JncJumpsOnNotCarry := by
  intro a s
  have h := jumpP3_frame .notCarry a s
  simp only [JumpCond.holds, Bool.not_eq_true'] at h
  exact ⟨_, exec_jnc a s, h⟩

/-- Settles O27: HLT's third phase is the identity. -/
theorem hltHasNoPhaseThreeAction : Obligations.HltHasNoPhaseThreeAction := fun x s =>
  ⟨s, exec_hlt x s, rfl, rfl, ⟨rfl, rfl⟩, ⟨rfl, rfl, rfl⟩, s.sameHostSide_refl, rfl⟩

/-! ### Sixteen bits (R317). -/

/-- A STO and a LOD between two arithmetic instructions keep the carry and the parameters. -/
theorem sto_lod_keep_carry {s t u : State} {a b : Byte} (hsto : exec (.sto a) s = .next t) (hlod : exec (.lod b) t = .next u) :
    u.c = s.c ∧ u.cfg = s.cfg := by
  obtain rfl := Host.Outcome.next.inj ((exec_sto a s).symm.trans hsto)
  obtain rfl := Host.Outcome.next.inj ((exec_lod b _).symm.trans hlod)
  simp

/-- Settles O36: the low sum's carry, 1 exactly when that sum reaches 256, is the carry-in of the high sum. -/
theorem addThenAdcIsSixteenBitAddition : Obligations.AddThenAdcIsSixteenBitAddition := by
  intro s s1 s2 s3 s4 lo st hi a _ hadd hsto hlod hadc
  obtain ⟨t1, h1, hlow, _, hcarry, _⟩ := addAddsTheOperand lo s
  obtain rfl := Host.Outcome.next.inj (h1.symm.trans hadd)
  obtain ⟨t4, h4, hhigh, _, hout, _⟩ := adcAddsTheOperandAndTheCarry a s3
  obtain rfl := Host.Outcome.next.inj (h4.symm.trans hadc)
  rw [(sto_lod_keep_carry hsto hlod).1] at hhigh hout
  rw [hout, hlow, hhigh]
  cases hc : t1.c with
  | true => have := hcarry.mp hc; simp only [Bool.toNat_true]; omega
  | false => have := mt hcarry.mpr (by simp [hc]); simp only [Bool.toNat_false]; omega

/-- R311: the C that a subtraction leaves, read back as a pending borrow, is 1 exactly when it borrowed. -/
theorem pendingBorrow_eq_ite {p : BorrowPolarity} {c : Bool} {borrowed : Prop} [Decidable borrowed]
    (hcarryOut : p = .carryOut → (c = true ↔ ¬ borrowed)) (hborrow : p = .borrow → (c = true ↔ borrowed)) :
    pendingBorrow p c = if borrowed then 1 else 0 := by
  cases p with
  | carryOut => by_cases hb : borrowed <;> cases c <;> simp_all [pendingBorrow]
  | borrow => by_cases hb : borrowed <;> cases c <;> simp_all [pendingBorrow]

/-- Settles O37: the low difference's borrow, 1 exactly when m exceeds ACC there, is the pending borrow of the high difference; under
either polarity the pair is subtracted with one borrow out. -/
theorem subThenSbbIsSixteenBitSubtraction : Obligations.SubThenSbbIsSixteenBitSubtraction := by
  intro s s1 s2 s3 s4 lo st hi a _ hsub hsto hlod hsbb
  obtain ⟨t1, h1, hlow, _, hno, hyes, _, _, hside, _⟩ := subSubtractsTheOperand lo s
  obtain rfl := Host.Outcome.next.inj (h1.symm.trans hsub)
  obtain ⟨t4, h4, hhigh, _, houtNo, houtYes, _⟩ := sbbSubtractsTheOperandAndTheBorrow a s3
  obtain rfl := Host.Outcome.next.inj (h4.symm.trans hsbb)
  obtain ⟨hc, hcfg⟩ := sto_lod_keep_carry hsto hlod
  obtain ⟨_, _, _, _, _, _, hcfg1⟩ := hside
  rw [hc, hcfg, hcfg1] at hhigh houtNo houtYes
  have hmlo := (s.cpuRead lo).isLt
  have hmhi := (s3.cpuRead a).isLt
  have hborrow := pendingBorrow_eq_ite (fun hp => (hno hp).trans Nat.not_lt.symm) hyes
  rw [hborrow] at hhigh houtNo houtYes
  refine ⟨?difference, fun hp => (houtNo hp).trans ?noBorrow, fun hp => (houtYes hp).trans ?borrow⟩
  case difference => rw [hlow, hhigh]; split <;> omega
  case noBorrow => split <;> omega
  case borrow => split <;> omega

end Sys2Proof.Machine
end

section
/-! PROOFS. The signal engine (spec/40_signal_engine.md): Unsubscribe (R137), the end of a Write (R134), the drain's order (R138), the
latch's draw (R201), and the fixed point of a settled network (R147, R149).

The last rests on an invariant of the drain, stated gate by gate: a gate with no queued invocation has its settled value, and of a gate
with queued invocations the last one carries the value its source node has now. Every change of a node queues all its subscribers with the
new value, so a stale captured value (R143) is always followed by a fresh one, and the last invocation of a gate computes from values that
are all current. -/

namespace Sys2Proof.Machine

namespace Engine

/-! ### Unsubscribe. -/

/-- What Unsubscribe can do: nothing at a handle of no node, else erase from one node's subscribers. -/
theorem unsubscribe_cases (n : Nat) (cb : Callback) (e : Engine) :
    (e.nodes[n]? = none ∧ unsubscribe n cb e = e) ∨
      ∃ d, e.nodes[n]? = some d ∧ unsubscribe n cb e = { e with nodes := e.nodes.set n { d with subs := d.subs.erase cb } } := by
  unfold unsubscribe
  cases h : e.nodes[n]? with
  | none => exact .inl ⟨rfl, rfl⟩
  | some d => exact .inr ⟨d, rfl, rfl⟩

theorem unsubscribe_queue (n : Nat) (cb : Callback) (e : Engine) : (unsubscribe n cb e).queue = e.queue := by
  obtain ⟨_, h⟩ | ⟨_, _, h⟩ := unsubscribe_cases n cb e <;> rw [h]

theorem unsubscribe_subsOf_same (n : Nat) (cb : Callback) (e : Engine) :
    (unsubscribe n cb e).subsOf n = (e.subsOf n).erase cb := by
  obtain ⟨hd, h⟩ | ⟨d, hd, h⟩ := unsubscribe_cases n cb e
  · rw [h]; simp [subsOf, hd]
  · obtain ⟨hn, _⟩ := List.getElem?_eq_some_iff.mp hd
    rw [h, subsOf_of_node (List.getElem?_set_self hn), subsOf_of_node hd]

theorem unsubscribe_subsOf_other {n m : Nat} (hm : m ≠ n) (cb : Callback) (e : Engine) :
    (unsubscribe n cb e).subsOf m = e.subsOf m := by
  obtain ⟨_, h⟩ | ⟨_, _, h⟩ := unsubscribe_cases n cb e
  · rw [h]
  · rw [h, subsOf, subsOf, List.getElem?_set_ne hm.symm]

theorem unsubscribe_read (n m : Nat) (cb : Callback) (e : Engine) : (unsubscribe n cb e).read m = e.read m := by
  obtain ⟨_, h⟩ | ⟨d, hd, h⟩ := unsubscribe_cases n cb e
  · rw [h]
  · obtain ⟨hn, _⟩ := List.getElem?_eq_some_iff.mp hd
    rw [h]
    by_cases hm : m = n
    · subst hm; rw [read_of_node (List.getElem?_set_self hn), read_of_node hd]
    · rw [read, read, List.getElem?_set_ne (Ne.symm hm)]

/-! ### The drain. -/

/-- R134, D17: a Write that starts settled and returns has drained its queue, or never filled it. -/
theorem write_idle {v : Env} {n : Nat} {b : Bool} {e e' : Engine} (hi : e.idle = true) (h : write v n b e = .ok e') :
    e'.idle = true := by
  obtain ⟨_, ⟨_, rfl⟩ | ⟨_, m, hm, ⟨hq, rfl⟩ | ⟨d, hd, rfl⟩⟩⟩ := write_cases hi h
  · exact hi
  · have hdraining : e.draining = false := by simpa [idle] using (Bool.and_eq_true_iff.mp hi).2
    obtain ⟨_, ⟨_, rfl⟩ | ⟨_, _, _, _, _, hkept⟩⟩ := post_cases hm
    · exact hi
    · simp [idle, hq, hkept, hdraining]
  · have hempty := (drain_induction (P := fun _ => True) (fun _ _ _ _ _ _ _ => trivial) _ _ _ trivial hd).2
    simp [idle, hempty]

/-- R138, with what later entries have already queued (`e.queue`) behind the entries `ps` of one depth: each of `ps` takes one unit of
fuel, and what it enqueues goes behind what is there. -/
theorem drain_append (v : Env) (n : Nat) (ps : List Pending) (e : Engine) :
    drain v (ps.length + n) { e with queue := ps ++ e.queue } =
      match deliverAll v ps e with
      | .ok e' => drain v n e'
      | .error s => .error s := by
  induction ps generalizing e with
  | nil => simp [deliverAll]
  | cons p ps ih =>
    rw [List.length_cons, Nat.add_right_comm, drain]
    have hfirst := deliver_prefix v p e ps
    simp only [List.cons_append, deliverAll, hfirst]
    cases deliver v p e with
    | error s => rfl
    | ok e' => exact ih e'

end Engine

open Engine

/-- Settles O52: the list of subscribers loses its first occurrence of the callback, and no other node is touched. -/
theorem unsubscribeRemovesTheEarliest : Obligations.UnsubscribeRemovesTheEarliest := by
  intro e n cb
  refine ⟨unsubscribe_queue n cb e, fun m hm => unsubscribe_subsOf_other hm cb e, fun m => unsubscribe_read n m cb e,
    fun habsent => ?absent, fun front back hsubs hfront => ?present⟩
  case absent => rw [unsubscribe_subsOf_same, List.erase_of_not_mem habsent]
  case present => rw [unsubscribe_subsOf_same, hsubs, List.erase_append_right _ hfront, List.erase_cons_head]

/-- Settles O53: the one way to return with something queued would be inside a drain, and the engine was idle. -/
theorem writeLeavesTheEngineSettled : Obligations.WriteLeavesTheEngineSettled := fun _ _ _ _ _ => write_idle

/-- Settles O54: the general law with nothing queued behind the entries of the depth. -/
theorem drainIsBreadthFirst : Obligations.DrainIsBreadthFirst := by
  intro v n e
  have h := drain_append v n e.queue { e with queue := [] }
  rw [List.append_nil] at h
  exact h

/-- Settles O56: the four cases of the latch's inputs; a source of draws that is constantly `b` draws `b`. -/
theorem latchDrawIsFree : Obligations.LatchDrawIsFree := by
  intro e nv edge fuel q r s a
  refine ⟨fun hs hr b => ⟨fun _ => b, ?both⟩, fun draw => ⟨fun hs hr => ?set, fun hs hr => ?reset, fun hs hr => ?hold⟩⟩
  case both => simp [act, hs, hr]
  case set => simp [act, hs, hr]
  case reset => simp [act, hs, hr]
  case hold => simp [act, hs, hr]

/-! ### The fixed point. -/

/-- Whether the value `b` fits a gate whose inputs have the values of `e`; a latch that holds, or draws, takes any. -/
def Gate.admits (g : Gate) (e : Engine) (b : Bool) : Bool :=
  match g with
  | .not x => b == !e.read x
  | .op2 f x y => b == f.apply (e.read x) (e.read y)
  | .op2K f x k => b == f.apply (e.read x) k
  | .sr r s =>
    match e.readSig s, e.readSig r with
    | true, false => b
    | false, true => !b
    | false, false => true
    | true, true => true

/-- A gate has its settled value when its node's value fits its inputs. -/
theorem gateHolds_eq_admits (e : Engine) (out : Nat) (g : Gate) : e.gateHolds out g = g.admits e (e.read out) := by
  cases g <;> rfl

/-- What fits a gate depends on its inputs alone. -/
theorem Gate.admits_congr {g : Gate} {e e' : Engine} (h : ∀ m ∈ g.inputs, e'.read m = e.read m) (b : Bool) :
    g.admits e' b = g.admits e b := by
  cases g with
  | not x => simp only [admits, h x (by simp [inputs])]
  | op2 f x y => simp only [admits, h x (by simp [inputs]), h y (by simp [inputs])]
  | op2K f x k => simp only [admits, h x (by simp [inputs])]
  | sr r s =>
    have hsig : ∀ x : Sig, (∀ m ∈ x.nodes, m ∈ (Gate.sr r s).inputs) → e'.readSig x = e.readSig x := by
      intro x hx
      cases x with
      | const b => rfl
      | node n => exact h n (hx n (by simp [Sig.nodes]))
    simp only [admits, hsig r fun m hm => List.mem_append_left _ hm, hsig s fun m hm => List.mem_append_right _ hm]

/-- The gate a queued invocation belongs to, with the node it drives. -/
def Pending.drives (p : Pending) : Option (Nat × Gate) := p.cb.drives p.src

/-- The last queued invocation of the gate `g` driving node `out`. -/
def lastFor (out : Nat) (g : Gate) (q : List Pending) : Option Pending := (q.filter fun p => p.drives == some (out, g)).getLast?

theorem lastFor_nil (out : Nat) (g : Gate) : lastFor out g [] = none := rfl

theorem lastFor_append (out : Nat) (g : Gate) (q q' : List Pending) :
    lastFor out g (q ++ q') = (lastFor out g q').or (lastFor out g q) := by
  rw [lastFor, List.filter_append, List.getLast?_append]
  rfl

/-- An invocation of another gate at the head does not matter. -/
theorem lastFor_cons_other {out : Nat} {g : Gate} {p : Pending} (h : p.drives ≠ some (out, g)) (q : List Pending) :
    lastFor out g (p :: q) = lastFor out g q := by
  simp [lastFor, h]

/-- Nor does one of the gate itself with another behind it. -/
theorem lastFor_cons_of_some {out : Nat} {g : Gate} {q : List Pending} {l : Pending} (h : lastFor out g q = some l) (p : Pending) :
    lastFor out g (p :: q) = some l := by
  rw [← List.singleton_append, lastFor_append, h]
  rfl

theorem lastFor_cons_of_none {out : Nat} {g : Gate} {p : Pending} {q : List Pending} (hp : p.drives = some (out, g))
    (h : lastFor out g q = none) : lastFor out g (p :: q) = some p := by
  rw [← List.singleton_append, lastFor_append, h]
  simp [lastFor, hp]

theorem lastFor_mem {out : Nat} {g : Gate} {q : List Pending} {p : Pending} (h : lastFor out g q = some p) :
    p ∈ q ∧ p.drives = some (out, g) := by
  simpa using List.mem_filter.mp (List.mem_of_getLast? h)

theorem lastFor_eq_none {out : Nat} {g : Gate} {q : List Pending} :
    lastFor out g q = none ↔ ∀ p ∈ q, p.drives ≠ some (out, g) := by
  simp [lastFor]

/-- The drain's invariant for one gate, with `b` for the value of its node: it fits if no invocation is queued, and the last one queued
carries its source's value. -/
def Gate.Due (g : Gate) (out : Nat) (b : Bool) (e : Engine) : Prop :=
  match lastFor out g e.queue with
  | none => g.admits e b = true
  | some p => p.arg = e.read p.src

theorem Gate.due_of_lastFor_some {g : Gate} {out : Nat} {e : Engine} {p : Pending} (h : lastFor out g e.queue = some p) (b : Bool) :
    g.Due out b e ↔ p.arg = e.read p.src := by
  rw [Due, h]

theorem Gate.due_of_lastFor_none {g : Gate} {out : Nat} {e : Engine} (h : lastFor out g e.queue = none) (b : Bool) :
    g.Due out b e ↔ g.admits e b = true := by
  rw [Due, h]

/-- Every queued invocation is of a subscriber of its source. -/
def Engine.QueueSubscribed (e : Engine) : Prop := ∀ p ∈ e.queue, p.cb ∈ e.subsOf p.src

/-- A gate is subscribed to every node it reads (R140). -/
def Gate.Subscribed (g : Gate) (out : Nat) (e : Engine) : Prop :=
  ∀ m ∈ g.inputs, ∃ cb ∈ e.subsOf m, cb.drives m = some (out, g)

/-- A post queues subscribers of the node it writes. -/
theorem post_queueSubscribed {n : Nat} {b : Bool} {e e' : Engine} (hq : e.QueueSubscribed) (h : post n b e = .ok e') :
    e'.QueueSubscribed := by
  intro p hp
  rw [post_subsOf h]
  obtain ⟨_, ⟨_, rfl⟩ | ⟨_, hqueue, _⟩⟩ := post_cases h
  · exact hq p hp
  · rw [hqueue, List.mem_append, List.mem_map] at hp
    obtain hold | ⟨cb, hcb, rfl⟩ := hp
    · exact hq p hold
    · exact hcb

/-- A post of `b` at `n` keeps a gate due, provided that `b` is due of it where it drives `n`: a gate that reads `n` is among the
subscribers queued, with the new value, and any other gate sees no change. -/
theorem post_due {n : Nat} {b : Bool} {e e' : Engine} {g : Gate} {out : Nat} (hq : e.QueueSubscribed) (hg : g.Subscribed out e)
    (hdue : g.Due out (if out = n then b else e.read out) e) (h : post n b e = .ok e') : g.Due out (e'.read out) e' := by
  obtain ⟨_, ⟨hheld, rfl⟩ | ⟨_, hqueue, hread, _⟩⟩ := post_cases h
  · have hsame : (if out = n then b else e'.read out) = e'.read out := by
      split
      · next hn => rw [hn, hheld]
      · rfl
    rwa [hsame] at hdue
  · rw [← hread] at hdue
    cases hnew : lastFor out g ((e.subsOf n).map fun cb => ⟨cb, b, n⟩) with
    | some p =>
      obtain ⟨cb, _, rfl⟩ := List.mem_map.mp (lastFor_mem hnew).1
      rw [Gate.due_of_lastFor_some (by rw [hqueue, lastFor_append, hnew]; rfl), hread, if_pos rfl]
    | none =>
      have hunqueued : ∀ cb ∈ e.subsOf n, cb.drives n ≠ some (out, g) := fun cb hcb =>
        lastFor_eq_none.mp hnew ⟨cb, b, n⟩ (List.mem_map.mpr ⟨cb, hcb, rfl⟩)
      have hlast : lastFor out g e'.queue = lastFor out g e.queue := by rw [hqueue, lastFor_append, hnew, Option.none_or]
      cases hold : lastFor out g e.queue with
      | some p =>
        obtain ⟨hp, hdrives⟩ := lastFor_mem hold
        have hsrc : p.src ≠ n := fun hn => hunqueued p.cb (hn ▸ hq p hp) (hn ▸ hdrives)
        rw [Gate.due_of_lastFor_some hold] at hdue
        rw [Gate.due_of_lastFor_some (hlast.trans hold), hdue, hread, if_neg hsrc]
      | none =>
        have hinputs : ∀ m ∈ g.inputs, e'.read m = e.read m := by
          intro m hm
          obtain ⟨cb, hcb, hdrives⟩ := hg m hm
          have hne : m ≠ n := fun hn => hunqueued cb (hn ▸ hcb) (hn ▸ hdrives)
          rw [hread, if_neg hne]
        rw [Gate.due_of_lastFor_none hold] at hdue
        rwa [Gate.due_of_lastFor_none (hlast.trans hold), Gate.admits_congr hinputs]

/-- What an invocation writes is the node of its own gate (R139); a listener writes none. -/
theorem drives_of_act {v : Env} {cb : Callback} {a : Bool} {e m : Engine} {n : Nat} {b : Bool}
    (h : act v cb a e = .ok (m, some (n, b))) (src : Nat) : ∃ g, cb.drives src = some (n, g) := by
  cases cb with
  | listener id la =>
    simp only [act] at h
    split at h <;> cases h
  | sr q r s =>
    simp only [act] at h
    split at h <;> cases h <;> exact ⟨_, rfl⟩
  | _ => cases h; exact ⟨_, rfl⟩

/-- An invocation whose argument is its source's value writes what fits its gate, unless the gate is a latch that holds. -/
theorem act_admits {v : Env} {cb : Callback} {e m : Engine} {o : Option (Nat × Bool)} {src out : Nat} {g : Gate}
    (h : act v cb (e.read src) e = .ok (m, o)) (hg : cb.drives src = some (out, g)) :
    (o = none ∧ ∀ b, g.admits e b = true) ∨ ∃ b, o = some (out, b) ∧ g.admits e b = true := by
  cases cb with
  | listener id la => cases hg
  | sr q r s =>
    cases hg
    simp only [act] at h
    split at h <;> (cases h; simp_all [Gate.admits])
  | _ => cases hg; cases h; exact .inr ⟨_, rfl, beq_self_eq_true _⟩

/-- The argument of an entry whose captured value is its source's is that value, whichever P_NOTIFY_VALUE chooses. -/
theorem argOf_of_current {v : Env} {p : Pending} {e : Engine} (h : p.arg = e.read p.src) : argOf v p e = e.read p.src := by
  unfold argOf
  split
  · exact h
  · rfl

/-- Popping an entry and invoking it keeps a gate due, counting what it is about to write as written. -/
theorem act_due {v : Env} {p : Pending} {rest : List Pending} {e m : Engine} {o : Option (Nat × Bool)} {g : Gate} {out : Nat}
    (hqueue : e.queue = p :: rest) (hdue : g.Due out (e.read out) e)
    (h : act v p.cb (argOf v p { e with queue := rest }) { e with queue := rest } = .ok (m, o))
    (hown : ∀ b, o = some (out, b) → p.drives = some (out, g)) :
    (o = none → g.Due out (m.read out) m) ∧ ∀ n b, o = some (n, b) → g.Due out (if out = n then b else m.read out) m := by
  obtain ⟨hnodes, hrest, _⟩ := act_cases h
  have hread : ∀ k, m.read k = e.read k := fun k => (read_congr hnodes k).trans (read_congr rfl k)
  cases hlast : lastFor out g rest with
  | some l =>
    rw [Gate.due_of_lastFor_some (hqueue ▸ lastFor_cons_of_some hlast p)] at hdue
    have hfresh : ∀ b, g.Due out b m := fun b =>
      (Gate.due_of_lastFor_some (hrest ▸ hlast) b).mpr (hdue.trans (hread _).symm)
    exact ⟨fun _ => hfresh _, fun _ _ _ => hfresh _⟩
  | none =>
    have hfit : ∀ b, g.admits e b = true → g.Due out b m := fun b hb =>
      (Gate.due_of_lastFor_none (hrest ▸ hlast) b).mpr ((Gate.admits_congr (fun k _ => hread k) b).trans hb)
    by_cases hp : p.drives = some (out, g)
    · rw [Gate.due_of_lastFor_some (hqueue ▸ lastFor_cons_of_none hp hlast)] at hdue
      rw [argOf_of_current (e := { e with queue := rest }) hdue] at h
      obtain ⟨rfl, hany⟩ | ⟨b, rfl, hb⟩ := act_admits h hp
      · exact ⟨fun _ => hfit _ (hany _), nofun⟩
      · refine ⟨nofun, fun n c hsome => ?_⟩
        cases hsome
        rw [if_pos rfl]
        exact hfit b hb
    · rw [Gate.due_of_lastFor_none (hqueue ▸ (lastFor_cons_other hp rest).trans hlast)] at hdue
      rw [hread]
      refine ⟨fun _ => hfit _ hdue, fun n b hsome => ?_⟩
      have hother : out ≠ n := by
        rintro rfl
        exact hp (hown b hsome)
      rw [if_neg hother]
      exact hfit _ hdue

/-! ### The whole network. -/

/-- Wires depend on the subscribers and on the size of the arena alone. -/
theorem wires_congr {e e' : Engine} (hsubs : ∀ m, e'.subsOf m = e.subsOf m) (hsize : e'.nodes.length = e.nodes.length) :
    e'.wires = e.wires := by
  simp only [Engine.wires, hsubs, hsize]

theorem wired_congr {e e' : Engine} (hsubs : ∀ m, e'.subsOf m = e.subsOf m) (hsize : e'.nodes.length = e.nodes.length) :
    e'.wired = e.wired := by
  simp only [Engine.wired, wires_congr hsubs hsize, hsize]

/-- In a wired network a node has one gate. -/
theorem gate_unique {e : Engine} (h : e.wired = true) {w w' : Wire} (hw : w ∈ e.wires) (hw' : w' ∈ e.wires) (hout : w.out = w'.out) :
    w.gate = w'.gate := by
  simp only [Engine.wired, Bool.and_eq_true, List.all_eq_true] at h
  have hone := h.1.1 w hw w' hw'
  simpa [hout] using hone

/-- In a wired network every gate is subscribed to what it reads. -/
theorem gate_subscribed {e : Engine} (h : e.wired = true) {w : Wire} (hw : w ∈ e.wires) : w.gate.Subscribed w.out e := by
  simp only [Engine.wired, Bool.and_eq_true, List.all_eq_true] at h
  intro m hm
  have hall := h.1.2 w hw m hm
  exact mem_wires.mp (List.contains_iff_mem.mp hall)

/-- The drain's invariant: the network is as the library built it, only subscribers are queued, and every gate is due. -/
structure Settling (e : Engine) : Prop where
  wired : e.wired = true
  queued : e.QueueSubscribed
  due : ∀ w ∈ e.wires, w.gate.Due w.out (e.read w.out) e

/-- A settling engine whose queue is empty has settled. -/
theorem Settling.consistent {e : Engine} (h : Settling e) (hq : e.queue = []) : e.consistent = true := by
  refine List.all_eq_true.mpr fun w hw => ?_
  rw [gateHolds_eq_admits]
  exact (Gate.due_of_lastFor_none (by rw [hq, lastFor_nil]) _).mp (h.due w hw)

/-- A settled engine with nothing queued is settling. -/
theorem Settling.of_consistent {e : Engine} (hwired : e.wired = true) (hq : e.queue = []) (h : e.consistent = true) : Settling e where
  wired := hwired
  queued p hp := by simp [hq] at hp
  due w hw := by
    rw [Gate.due_of_lastFor_none (by rw [hq, lastFor_nil]), ← gateHolds_eq_admits]
    exact List.all_eq_true.mp h w hw

/-- A post keeps an engine settling, if the value posted is due of the gate that drives the node. -/
theorem Settling.post {e e' : Engine} {n : Nat} {b : Bool} (hwired : e.wired = true) (hq : e.QueueSubscribed)
    (hdue : ∀ w ∈ e.wires, w.gate.Due w.out (if w.out = n then b else e.read w.out) e) (h : post n b e = .ok e') : Settling e' := by
  have hsubs := post_subsOf h
  have hsize : e'.nodes.length = e.nodes.length := by
    obtain ⟨_, ⟨_, rfl⟩ | ⟨_, _, _, _, hlength, _⟩⟩ := post_cases h
    · rfl
    · exact hlength
  refine ⟨(wired_congr hsubs hsize).trans hwired, post_queueSubscribed hq h, fun w hw => ?_⟩
  rw [wires_congr hsubs hsize] at hw
  exact post_due hq (gate_subscribed hwired hw) (hdue w hw) h

/-- Each delivery of the drain keeps the engine settling: what an entry writes is due of its own gate, and no other gate drives that
node. -/
theorem Settling.deliver {v : Env} {e e' : Engine} {p : Pending} {rest : List Pending} (hs : Settling e) (hqueue : e.queue = p :: rest)
    (h : deliver v p { e with queue := rest } = .ok e') : Settling e' := by
  obtain ⟨m, o, hact, hpost⟩ := deliver_cases h
  obtain ⟨hnodes, hrest, _⟩ := act_cases hact
  have hsubs : ∀ k, m.subsOf k = e.subsOf k := fun k => subsOf_congr (e := e) hnodes k
  have hsize : m.nodes.length = e.nodes.length := congrArg List.length hnodes
  have hwired : m.wired = true := (wired_congr hsubs hsize).trans hs.wired
  have hqueued : m.QueueSubscribed := by
    intro q hq
    rw [hsubs]
    exact hs.queued q (hqueue ▸ List.mem_cons_of_mem p ((show m.queue = rest from hrest) ▸ hq))
  have hdue : ∀ w ∈ m.wires, (o = none → w.gate.Due w.out (m.read w.out) m) ∧
      ∀ n b, o = some (n, b) → w.gate.Due w.out (if w.out = n then b else m.read w.out) m := by
    intro w hw
    rw [wires_congr hsubs hsize] at hw
    refine act_due hqueue (hs.due w hw) hact fun b hb => ?_
    obtain ⟨g, hg⟩ := drives_of_act (hb ▸ hact) p.src
    have hwire : (⟨p.src, w.out, g⟩ : Wire) ∈ e.wires :=
      mem_wires.mpr ⟨p.cb, hs.queued p (hqueue ▸ List.mem_cons_self), hg⟩
    rw [← gate_unique hs.wired hwire hw rfl]
    exact hg
  obtain ⟨ho, rfl⟩ | ⟨n, b, ho, hn⟩ := hpost
  · exact ⟨hwired, hqueued, fun w hw => (hdue w hw).1 ho⟩
  · exact Settling.post hwired hqueued (fun w hw => (hdue w hw).2 n b ho) hn

/-- The flag that marks a drain active is no part of the invariant. -/
theorem Settling.setDraining {e : Engine} (h : Settling e) (b : Bool) : Settling { e with draining := b } := ⟨h.wired, h.queued, h.due⟩

/-- Settles O55: a post at an input node, which no gate drives, leaves every gate due; each delivery of the drain keeps that; and when the
queue is empty, what is due is the settled value. -/
theorem settlingReachesAFixedPoint : Obligations.SettlingReachesAFixedPoint := by
  intro v e e' n b hidle hwired hconsistent hinput h
  suffices hs : Settling e' ∧ e'.queue = [] from ⟨hs.1.consistent hs.2, write_idle hidle h, hs.1.wired⟩
  have hempty : e.queue = [] := by simpa using (Bool.and_eq_true_iff.mp hidle).1
  have hstart := Settling.of_consistent hwired hempty hconsistent
  obtain ⟨_, ⟨_, rfl⟩ | ⟨_, m, hpost, hend⟩⟩ := write_cases hidle h
  · exact ⟨hstart, hempty⟩
  · have hm : Settling m := by
      refine Settling.post hwired hstart.queued (fun w hw => ?_) hpost
      have hout : w.out ≠ n := by simpa using List.all_eq_true.mp hinput w hw
      rw [if_neg hout]
      exact hstart.due w hw
    obtain ⟨hq, rfl⟩ | ⟨d, hdrain, rfl⟩ := hend
    · exact ⟨hm, hq⟩
    · obtain ⟨hd, hq⟩ := drain_induction (fun _ _ _ _ hs hqueue hdeliver => Settling.deliver hs hqueue hdeliver) _ _ _
        (hm.setDraining true) hdrain
      exact ⟨hd.setDraining false, hq⟩

end Sys2Proof.Machine
end

section
/-! PROOFS. Bus conversion (spec/20_memory.md R70) and the console's protocols on runs of addresses (R68, R69). What a load writes is said
once, as the state that storing the bytes one by one leaves; a load that fits and the loads that end in the host error differ only in what
follows those bytes. -/

namespace Sys2Proof.Machine

/-! ### ToBus. -/

theorem fitsBus_eq_true {v : Int} {w : Nat} : fitsBus v w = true ↔ 0 ≤ v ∧ v < 2 ^ w := by
  simp [fitsBus]

theorem toBus_of_fits {v : Int} {w : Nat} (h : 0 ≤ v ∧ v < 2 ^ w) : toBus v w = some (bitsOf w v.toNat) := by
  rw [toBus, fitsBus_eq_true.mpr h]
  rfl

theorem toBus_of_not_fits {v : Int} {w : Nat} (h : ¬ (0 ≤ v ∧ v < 2 ^ w)) : toBus v w = none := by
  rw [toBus, if_neg (mt fitsBus_eq_true.mp h)]

/-- The bits of an integer that fits have its value: nothing is cut off. -/
theorem busValue_bitsOf_toNat {v : Int} {w : Nat} (h : 0 ≤ v ∧ v < 2 ^ w) : (busValue (bitsOf w v.toNat) : Int) = v := by
  have hlt : v.toNat < 2 ^ w := (Int.toNat_lt h.1).mpr (by exact_mod_cast h.2)
  rw [busValue_bitsOf, Nat.mod_eq_of_lt hlt, Int.toNat_of_nonneg h.1]

/-- Settles O43: ToBus is defined by the test that the integer fits, and the console's conversion by the same test at width 8. -/
theorem busConversionNeverTruncates : Obligations.BusConversionNeverTruncates := by
  refine ⟨fun v w => ⟨fun h => ⟨_, toBus_of_fits h, bitsOf_length w _, busValue_bitsOf_toNat h⟩,
    fun h => ⟨toBus_of_not_fits h, fun env bus e hwidth => ?rejected⟩⟩, fun v => ⟨fun h => ?byte, fun h => ⟨?noByte, toBus_of_not_fits h⟩⟩⟩
  case rejected => rw [Engine.writeBus, hwidth, toBus_of_not_fits h]
  case byte =>
    lift v to Nat using h.1
    have hlt : v < 256 := by exact_mod_cast h.2
    refine ⟨_, toByteBus_fits v hlt, ?_, ?_⟩
    · rw [BitVec.toNat_ofNat, Nat.mod_eq_of_lt hlt]
    · rw [toBus_of_fits (w := 8) h, BitVec.toNat_ofNat, Nat.mod_eq_of_lt hlt, Int.toNat_natCast]
  case noByte => exact toByteBus_rejects v (by omega)

/-! ### ConsoleRead and ConsoleLoad. -/

/-- Settles O42: the read drives OV.addr and the takeover line, and nothing else. -/
theorem consoleReadDisturbsOnlyItsAddress : Obligations.ConsoleReadDisturbsOnlyItsAddress := by
  intro s a hlow
  rw [consoleRead_low a hlow]
  rfl

/-- What R68's pulse for one byte at address `a` leaves: the console's buses as driven, and the byte stored. -/
def storedByte (a : Nat) (b : Byte) (s : State) : State :=
  ((s.setOvAddr (BitVec.ofNat 8 a)).setOvData b).memWrite (BitVec.ofNat 8 a) b

/-- What loading the bytes from address `a` upward leaves. -/
def storedBytes : Nat → List Byte → State → State
  | _, [], s => s
  | a, b :: bytes, s => storedBytes (a + 1) bytes (storedByte a b s)

/-- A state that differs from `s` in memory and in the console's address and data alone. -/
structure StoreFrame (s t : State) : Prop where
  takeover : t.takeover = s.takeover
  ovWrite : t.ovWrite = s.ovWrite
  acc : t.acc = s.acc
  pc : t.pc = s.pc
  flags : s.sameFlags t
  cycle : s.sameCycle t
  wf : s.mem.wf = true → t.mem.wf = true

theorem storedByte_frame (a : Nat) (b : Byte) (s : State) : StoreFrame s (storedByte a b s) :=
  ⟨rfl, rfl, rfl, rfl, ⟨rfl, rfl⟩, ⟨rfl, rfl, rfl⟩, fun h => State.memWrite_wf h _ _⟩

theorem StoreFrame.trans {s t u : State} (h : StoreFrame s t) (h' : StoreFrame t u) : StoreFrame s u where
  takeover := h'.takeover.trans h.takeover
  ovWrite := h'.ovWrite.trans h.ovWrite
  acc := h'.acc.trans h.acc
  pc := h'.pc.trans h.pc
  flags := ⟨h'.flags.1.trans h.flags.1, h'.flags.2.trans h.flags.2⟩
  cycle := ⟨h'.cycle.1.trans h.cycle.1, h'.cycle.2.1.trans h.cycle.2.1, h'.cycle.2.2.trans h.cycle.2.2⟩
  wf := h'.wf ∘ h.wf

theorem storedBytes_frame (a : Nat) (bytes : List Byte) (s : State) : StoreFrame s (storedBytes a bytes s) := by
  induction bytes generalizing a s with
  | nil => exact ⟨rfl, rfl, rfl, rfl, ⟨rfl, rfl⟩, ⟨rfl, rfl, rfl⟩, id⟩
  | cons b bytes ih => exact (storedByte_frame a b s).trans (ih (a + 1) _)

/-- R63 for one byte. -/
theorem storedByte_read {a : Nat} {b : Byte} {s : State} (hwf : s.mem.wf = true) (ha : a < 256) (x : Nat) :
    (storedByte a b s).mem.read x = if x = a then b else s.mem.read x := by
  have haddr : (BitVec.ofNat 8 a).toNat = a := by rw [BitVec.toNat_ofNat, Nat.mod_eq_of_lt ha]
  change (s.mem.write (BitVec.ofNat 8 a).toNat b).read x = _
  rw [haddr]
  split
  · next hx => rw [hx]; exact Memory.read_write_same hwf
  · next hx => exact Memory.read_write_other hx s.mem

/-- Each byte is at its address, and every other address is as it was. -/
theorem storedBytes_read {a : Nat} {bytes : List Byte} {s : State} (hwf : s.mem.wf = true) (hfit : a + bytes.length ≤ 256) (x : Nat) :
    (storedBytes a bytes s).mem.read x =
      if a ≤ x ∧ x < a + bytes.length then bytes.getD (x - a) 0x00#8 else s.mem.read x := by
  induction bytes generalizing a s with
  | nil => rw [if_neg (by simp), storedBytes]
  | cons b bytes ih =>
    rw [List.length_cons] at hfit ⊢
    rw [storedBytes, ih ((storedByte_frame a b s).wf hwf) (by omega), storedByte_read hwf (by omega)]
    rcases lt_trichotomy x a with hlt | rfl | hgt
    · rw [if_neg (by omega), if_neg (by omega), if_neg (by omega)]
    · rw [if_neg (by omega), if_pos rfl, if_pos (by omega), Nat.sub_self]
      rfl
    · rw [if_neg (Nat.ne_of_gt hgt), show x - a = x - (a + 1) + 1 by omega, List.getD_cons_succ]
      by_cases hin : x < a + 1 + bytes.length
      · rw [if_pos (by omega), if_pos (by omega)]
      · rw [if_neg (by omega), if_neg (by omega)]

/-- R68: bytes that fit, at addresses that fit, are stored one by one, and the load goes on behind them. -/
theorem consoleLoadFrom_append {a : Nat} {bytes : List Byte} {s : State} (more : List Int) (hlow : s.ovWrite = false)
    (htake : s.takeover = true) (hfit : a + bytes.length ≤ 256) :
    consoleLoadFrom a (bytes.map (fun b => (b.toNat : Int)) ++ more) s =
      consoleLoadFrom ((a + bytes.length : Nat) : Int) more (storedBytes a bytes s) := by
  induction bytes generalizing a s with
  | nil => rfl
  | cons b bytes ih =>
    rw [List.length_cons] at hfit ⊢
    have hframe := storedByte_frame a b s
    have haddr : (BitVec.ofNat 8 a).toNat = a := by rw [BitVec.toNat_ofNat, Nat.mod_eq_of_lt (by omega)]
    have hfirst := consoleLoadFrom_byte (BitVec.ofNat 8 a) b (bytes.map (fun b => (b.toNat : Int)) ++ more) s hlow htake
    rw [haddr] at hfirst
    rw [List.map_cons, List.cons_append, hfirst, show a + (bytes.length + 1) = a + 1 + bytes.length by omega]
    exact ih (a := a + 1) (hframe.ovWrite.trans hlow) (hframe.takeover.trans htake) (by omega)

/-- A load with the write line low first asserts takeover (R68). -/
theorem consoleLoad_append {a : Nat} {bytes : List Byte} {s : State} (more : List Int) (hlow : s.ovWrite = false)
    (hfit : a + bytes.length ≤ 256) :
    consoleLoad a (bytes.map (fun b => (b.toNat : Int)) ++ more) s =
      consoleLoadFrom ((a + bytes.length : Nat) : Int) more (storedBytes a bytes (s.setTakeoverLine true)) := by
  rw [consoleLoad, driveTakeover_low true s hlow]
  exact consoleLoadFrom_append more (by simpa using hlow) rfl hfit

/-- Settles O40: the bytes are stored one by one, and the end of the load releases takeover. -/
theorem consoleLoadPlacesEveryByte : Obligations.ConsoleLoadPlacesEveryByte := by
  intro s a bytes hwf hlow hfit
  have hload := consoleLoad_append [] hlow hfit
  have hframe := storedBytes_frame a bytes (s.setTakeoverLine true)
  have hline : (storedBytes a bytes (s.setTakeoverLine true)).ovWrite = false := hframe.ovWrite.trans hlow
  rw [List.append_nil, consoleLoadFrom, driveTakeover_low _ _ hline] at hload
  exact ⟨_, hload, rfl, hline, hframe.wf hwf, hframe.acc, hframe.pc, hframe.flags, hframe.cycle,
    fun x _ => storedBytes_read (s := s.setTakeoverLine true) hwf hfit x⟩

/-- R402: an address that does not fit ends the load where it stands. -/
theorem consoleLoadFrom_bad_address {a : Int} (h : a < 0 ∨ 256 ≤ a) (b : Int) (more : List Int) (s : State) :
    consoleLoadFrom a (b :: more) s = .hostError s := by
  simp only [consoleLoadFrom, toByteBus_rejects a h]

/-- R402: a byte that does not fit ends the load with OV.addr driven and nothing stored. -/
theorem consoleLoadFrom_bad_byte {a : Nat} {b : Int} {s : State} (ha : a < 256) (h : b < 0 ∨ 256 ≤ b) (more : List Int)
    (hlow : s.ovWrite = false) : consoleLoadFrom a (b :: more) s = .hostError (s.setOvAddr (BitVec.ofNat 8 a)) := by
  simp only [consoleLoadFrom, toByteBus_fits a ha, toByteBus_rejects b h, driveAddr_low _ s hlow]

/-- Settles O41: the bytes that fit are stored as in a load that fits; what follows them ends the load at its address or at its value,
and a first address that does not fit leaves only takeover asserted. -/
theorem consoleOverflowKeepsEarlierBytes : Obligations.ConsoleOverflowKeepsEarlierBytes := by
  refine ⟨fun s a bytes bad more hwf hlow hfit hbad => ?byte, fun s a bytes b more hwf hlow hfit => ?address,
    fun s a b more hlow ha => ?load, fun s a hlow ha => ?read⟩
  case byte =>
    have hframe := storedBytes_frame a bytes (s.setTakeoverLine true)
    refine ⟨_, (consoleLoad_append (bad :: more) hlow hfit.le).trans
      (consoleLoadFrom_bad_byte hfit hbad more (hframe.ovWrite.trans hlow)), hframe.takeover, fun x _ => ?_⟩
    exact storedBytes_read (s := s.setTakeoverLine true) hwf hfit.le x
  case address =>
    have hframe := storedBytes_frame a bytes (s.setTakeoverLine true)
    refine ⟨_, (consoleLoad_append (b :: more) hlow hfit.le).trans (consoleLoadFrom_bad_address (by omega) b more _), hframe.takeover,
      fun x hx => ?_⟩
    rw [storedBytes_read (s := s.setTakeoverLine true) hwf hfit.le x, hfit]
    simp only [hx, and_true]
    rfl
  case load =>
    rw [consoleLoad, driveTakeover_low true s hlow, consoleLoadFrom_bad_address ha]
    rfl
  case read =>
    simp only [consoleRead, driveTakeover_low true s hlow, toByteBus_rejects a ha]
    rfl

end Sys2Proof.Machine
end

section
/-! PROOFS. The arithmetic library (spec/41_combinational.md R177 to R181) and the ring counter (spec/43_counters.md R235 to R237). The
settled functions are computed first; a network built from gates then computes them in every later settled engine, which is proved along
the construction, one step of the build at a time. -/

namespace Sys2Proof.Machine

namespace Settled

/-! ### The settled functions. -/

/-- R178: a full adder counts its inputs. -/
theorem fullAdder_toNat (x y c : Bool) :
    (fullAdder x y c).1.toNat + 2 * (fullAdder x y c).2.toNat = x.toNat + y.toNat + c.toNat := by
  cases x <;> cases y <;> cases c <;> rfl

@[simp] theorem multiAdder_length {xs ys : List Bool} (c : Bool) (h : xs.length = ys.length) :
    (multiAdder xs ys c).1.length = xs.length := by
  induction xs generalizing ys c with
  | nil => rfl
  | cons x xs ih =>
    cases ys with
    | nil => simp at h
    | cons y ys => simp only [multiAdder, List.length_cons, ih _ (Nat.succ.inj h)]

/-- R179 without a modulus: the sum bus with the carry-out as its top bit. -/
theorem multiAdder_total {xs ys : List Bool} (c : Bool) (h : xs.length = ys.length) :
    busValue (multiAdder xs ys c).1 + 2 ^ xs.length * (multiAdder xs ys c).2.toNat = busValue xs + busValue ys + c.toNat := by
  induction xs generalizing ys c with
  | nil =>
    cases ys with
    | nil => simp [multiAdder, busValue]
    | cons y ys => simp at h
  | cons x xs ih =>
    cases ys with
    | nil => simp at h
    | cons y ys =>
      have hrest := ih (fullAdder x y c).2 (Nat.succ.inj h)
      have hbit := fullAdder_toNat x y c
      simp only [multiAdder, busValue, List.length_cons, pow_succ]
      linarith

/-- R179: the sum is the total modulo 2^N, for the sum bus has N bits. -/
theorem busValue_multiAdder {xs ys : List Bool} (c : Bool) (h : xs.length = ys.length) :
    busValue (multiAdder xs ys c).1 = (busValue xs + busValue ys + c.toNat) % 2 ^ xs.length := by
  have hlt := busValue_lt (multiAdder xs ys c).1
  rw [multiAdder_length c h] at hlt
  rw [← multiAdder_total c h, Nat.add_mul_mod_self_left, Nat.mod_eq_of_lt hlt]

/-- R179: the carry-out is 1 iff the total does not fit in N bits. -/
theorem multiAdder_carry {xs ys : List Bool} (c : Bool) (h : xs.length = ys.length) :
    (multiAdder xs ys c).2 = true ↔ 2 ^ xs.length ≤ busValue xs + busValue ys + c.toNat := by
  have hlt := busValue_lt (multiAdder xs ys c).1
  rw [multiAdder_length c h] at hlt
  rw [← multiAdder_total c h]
  cases (multiAdder xs ys c).2 with
  | true => simp
  | false => simpa using hlt

@[simp] theorem xor_false (x : Bool) : xor x false = x := by cases x <;> rfl

@[simp] theorem onesComp_length (invert : Bool) (xs : List Bool) : (onesComp invert xs).length = xs.length := List.length_map _

/-- R180: with `invert` low the inverter passes its bus. -/
theorem onesComp_false (xs : List Bool) : onesComp false xs = xs := by
  simp [onesComp]

/-- R180: with `invert` high it gives 2^N − 1 less the value. -/
theorem busValue_onesComp_true (xs : List Bool) : busValue (onesComp true xs) + busValue xs + 1 = 2 ^ xs.length := by
  induction xs with
  | nil => rfl
  | cons x xs ih =>
    have hbit : (xor x true).toNat + x.toNat = 1 := by cases x <;> rfl
    simp only [onesComp, List.map_cons, busValue, List.length_cons, pow_succ] at ih ⊢
    linarith

theorem busValue_eq_zero_iff (xs : List Bool) : busValue xs = 0 ↔ ∀ x ∈ xs, x = false := by
  induction xs with
  | nil => simp [busValue]
  | cons x xs ih => cases x <;> simp [busValue, ih]

/-- R311: the OR of all bits of a bus is low exactly when the bus is 0. -/
theorem foldl_or_eq_false (xs : List Bool) : xs.foldl (fun a b => a || b) false = false ↔ busValue xs = 0 := by
  have hinit : ∀ (xs : List Bool) (a : Bool), xs.foldl (fun a b => a || b) a = false ↔ a = false ∧ ∀ x ∈ xs, x = false := by
    intro xs
    induction xs with
    | nil => simp
    | cons x xs ih => simp [ih, and_assoc]
  rw [hinit, busValue_eq_zero_iff]
  simp

/-! ### The ring. -/

/-- R235: a shift only rotates the outputs. -/
theorem trueCount_ringShift (out : List Bool) : trueCount (ringShift out) = trueCount out := by
  unfold ringShift
  cases h : out.getLast? with
  | none => rw [List.getLast?_eq_none_iff.mp h]
  | some b =>
    obtain ⟨front, rfl⟩ := List.getLast?_eq_some_iff.mp h
    rw [List.dropLast_concat]
    exact List.Perm.countP_eq _ (List.perm_append_singleton b front).symm

/-- R235: `clear` asserts the output of one index alone. -/
theorem trueCount_ringClear_le_one (n : Nat) : trueCount (ringClear n) ≤ 1 := by
  have hcount : trueCount (ringClear n) ≤ (List.range n).count (n - 1) := by
    rw [trueCount, ringClear, List.countP_map, List.count]
    refine List.countP_mono_left fun i _ hi => ?_
    simp only [Function.comp_apply, beq_iff_eq] at hi ⊢
    omega
  exact hcount.trans (List.nodup_iff_count_le_one.mp List.nodup_range _)

theorem trueCount_ringEvent_le_one {out : List Bool} (h : trueCount out ≤ 1) (ev : RingEvent) : trueCount (ringEvent out ev) ≤ 1 := by
  cases ev with
  | fallingEdge => exact (trueCount_ringShift out).trans_le h
  | clearPulse => exact trueCount_ringClear_le_one out.length

theorem ringShift_replicate_false (n : Nat) : ringShift (List.replicate n false) = List.replicate n false := by
  cases n with
  | zero => rfl
  | succ n => rw [ringShift, List.replicate_succ', List.getLast?_concat, List.dropLast_concat, ← List.replicate_succ', List.replicate_succ]

/-- R28, R280: the phase generator's next place is the shift of its outputs; NONE, the all-false output, stays. -/
theorem ringOutputs_next (r : Ring) : ringOutputs r.next = ringShift (ringOutputs r) := by
  cases r <;> rfl

end Settled

open Settled

/-- Settles O57: the total's lower N bits, and its top bit. -/
theorem multiAdderAddsModuloTheWidth : Obligations.MultiAdderAddsModuloTheWidth := fun _ _ c h =>
  ⟨busValue_multiAdder c h, multiAdder_carry c h⟩

/-- Settles O60: a falling edge permutes the outputs and a clear leaves one; all false shifts to all false; and a phase step that answers
moves the Computer's ring to its next place. -/
theorem ringStaysOneHot : Obligations.RingStaysOneHot := by
  refine ⟨fun out events h => ?oneHot, fun n k => ?allFalse, fun s t h => ?computer⟩
  case oneHot =>
    induction events generalizing out with
    | nil => exact h
    | cons ev events ih => exact ih _ (trueCount_ringEvent_le_one h ev)
  case allFalse =>
    induction k with
    | zero => rfl
    | succ k ih => rwa [List.replicate_succ, ringRun, List.foldl_cons, ringEvent, ringShift_replicate_false]
  case computer => rw [(phaseStep_frame h).ring, ringOutputs_next]

/-! ### The Computer's arithmetic unit. -/

/-- R180 at the Computer's width: the inverter on a byte. -/
theorem busValue_onesComp_bitsOf (inverts : Bool) (m : Byte) :
    busValue (onesComp inverts (bitsOf 8 m.toNat)) = (invertIf inverts m).toNat := by
  have hbits : busValue (bitsOf 8 m.toNat) = m.toNat := by rw [busValue_bitsOf, Nat.mod_eq_of_lt m.isLt]
  cases inverts with
  | false => rw [onesComp_false, hbits, invertIf_false]
  | true =>
    have hinv := busValue_onesComp_true (bitsOf 8 m.toNat)
    rw [hbits, bitsOf_length] at hinv
    rw [invertIf_true_toNat]
    omega

/-- Settles O38: R179 at width 8, on ACC and the inverted operand, has the total of R310. -/
theorem arithmeticUnitIsTheLibrarysAdder : Obligations.ArithmeticUnitIsTheLibrarysAdder := by
  intro p op acc m c
  have hwidth : (bitsOf 8 acc.toNat).length = (onesComp op.inverts (bitsOf 8 m.toNat)).length := by simp
  have htotal : busValue (bitsOf 8 acc.toNat) + busValue (onesComp op.inverts (bitsOf 8 m.toNat)) + (carryIn p op c).toNat =
      arithTotal p op acc m c := by
    rw [busValue_onesComp_bitsOf, busValue_bitsOf, Nat.mod_eq_of_lt acc.isLt]
    rfl
  have hsum := busValue_multiAdder (carryIn p op c) hwidth
  have hcarry := multiAdder_carry (carryIn p op c) hwidth
  rw [htotal, bitsOf_length] at hsum hcarry
  refine ⟨hsum.trans (arithSum_toNat _).symm, Bool.eq_iff_iff.mpr (hcarry.trans carryOut_eq_true.symm), Bool.eq_iff_iff.mpr ?zero⟩
  case zero =>
    rw [zeroFlag_eq_true, arithSum_toNat, arithUnit, Bool.not_eq_true', foldl_or_eq_false, hsum]
    rfl

/-! ### Networks built from gates. -/

open Engine

/-- A construction `b` yields what satisfies `P` in every later settled engine, and takes no subscription away. -/
def SettlesTo {α : Type} (b : Build α) (P : α → Engine → Prop) : Prop :=
  ∀ e r e', b e = .ok (r, e') → Keeps e e' ∧ ∀ e2, Keeps e' e2 → e2.consistent = true → P r e2

/-- Constructions in sequence: what the first yields holds where the second's result is used. -/
theorem SettlesTo.bind {α β : Type} {b : Build α} {f : α → Build β} {P : α → Engine → Prop} {Q : β → Engine → Prop}
    (hb : SettlesTo b P) (hf : ∀ a, SettlesTo (f a) fun r e2 => P a e2 → Q r e2) : SettlesTo (b >>= f) Q := by
  intro e r e' h
  obtain ⟨a, m, hfirst, hsecond⟩ := build_bind_ok h
  obtain ⟨hkeep, hP⟩ := hb e a m hfirst
  obtain ⟨hkeep', hQ⟩ := hf a m r e' hsecond
  exact ⟨hkeep.trans hkeep', fun e2 hlater hcons => hQ e2 hlater hcons (hP e2 (hkeep'.trans hlater) hcons)⟩

theorem SettlesTo.mono {α : Type} {b : Build α} {P Q : α → Engine → Prop} (hb : SettlesTo b P) (h : ∀ r e2, P r e2 → Q r e2) :
    SettlesTo b Q := by
  intro e r e' hr
  obtain ⟨hkeep, hP⟩ := hb e r e' hr
  exact ⟨hkeep, fun e2 hlater hcons => h r e2 (hP e2 hlater hcons)⟩

theorem SettlesTo.pure {α : Type} {a : α} {P : α → Engine → Prop} (h : ∀ e2, P a e2) : SettlesTo (pure a) P := by
  intro e r e' hr
  obtain ⟨rfl, rfl⟩ := build_pure_ok hr
  exact ⟨Keeps.refl _, fun e2 _ _ => h e2⟩

/-- A refused construction yields nothing. -/
theorem SettlesTo.refuse {α : Type} (c : Refusal) (P : α → Engine → Prop) : SettlesTo (Build.refuse c) P := nofun

theorem settlesTo_require (ok : Bool) (c : Refusal) : SettlesTo (Build.require ok c) fun _ _ => ok = true := by
  intro e r e' h
  obtain ⟨hok, rfl⟩ := build_require_ok h
  exact ⟨Keeps.refl _, fun _ _ _ => hok⟩

theorem settlesTo_mkXor (v : Env) (x y : Sig) :
    SettlesTo (mkXor v x y) fun r e2 => e2.readSig r = Settled.xor (e2.readSig x) (e2.readSig y) := fun _ _ _ h => mkXor_settled h

theorem settlesTo_mkAnd (v : Env) (x y : Sig) :
    SettlesTo (mkAnd v x y) fun r e2 => e2.readSig r = (e2.readSig x && e2.readSig y) := fun _ _ _ h => mkOp2_settled h

theorem settlesTo_mkOr (v : Env) (x y : Sig) :
    SettlesTo (mkOr v x y) fun r e2 => e2.readSig r = (e2.readSig x || e2.readSig y) := fun _ _ _ h => mkOp2_settled h

/-- R177. -/
theorem settlesTo_mkHalfAdder (v : Env) (a b : Sig) :
    SettlesTo (mkHalfAdder v a b) fun r e2 => (e2.readSig r.1, e2.readSig r.2) = halfAdder (e2.readSig a) (e2.readSig b) :=
  (settlesTo_mkXor v a b).bind fun _ => (settlesTo_mkAnd v a b).bind fun _ => .pure fun _ hcarry hsum => by
    rw [hsum, hcarry, halfAdder]

/-- R178. -/
theorem settlesTo_mkFullAdder (v : Env) (a b cin : Sig) :
    SettlesTo (mkFullAdder v a b cin) fun r e2 =>
      (e2.readSig r.1, e2.readSig r.2) = fullAdder (e2.readSig a) (e2.readSig b) (e2.readSig cin) :=
  (settlesTo_mkHalfAdder v a b).bind fun h1 => (settlesTo_mkHalfAdder v h1.1 cin).bind fun h2 =>
    (settlesTo_mkOr v h1.2 h2.2).bind fun _ => .pure fun _ hout h2 h1 => by
      rw [hout, fullAdder, ← h1, ← h2]

/-- R179: the ripple of full adders computes the ripple of their functions. -/
theorem settlesTo_mkRippleAdd (v : Env) (xs ys : List Sig) (c : Sig) :
    SettlesTo (mkRippleAdd v xs ys c) fun r e2 =>
      (e2.readBus r.1, e2.readSig r.2) = multiAdder (e2.readBus xs) (e2.readBus ys) (e2.readSig c) := by
  induction xs generalizing ys c with
  | nil =>
    cases ys with
    | nil => exact .pure fun _ => rfl
    | cons y ys => exact .refuse _ _
  | cons x xs ih =>
    cases ys with
    | nil => exact .refuse _ _
    | cons y ys =>
      refine (settlesTo_mkFullAdder v x y c).bind fun fa => (ih ys fa.2).bind fun rest => .pure fun e2 hrest hfa => ?_
      simp only [Engine.readBus, List.map_cons, multiAdder, Prod.mk.injEq] at hrest ⊢
      rw [← hfa, ← hrest]
      exact ⟨rfl, rfl⟩

/-- R179: the MultiAdder, whose construction admits buses of one width alone. -/
theorem settlesTo_mkMultiAdder (v : Env) (xs ys : List Sig) (c : Sig) :
    SettlesTo (mkMultiAdder v xs ys c) fun r e2 => xs.length = ys.length ∧
      (e2.readBus r.1, e2.readSig r.2) = multiAdder (e2.readBus xs) (e2.readBus ys) (e2.readSig c) := by
  refine (settlesTo_require _ _).bind fun _ => (settlesTo_require _ _).bind fun _ =>
    (settlesTo_mkRippleAdd v xs ys c).mono fun r e2 hsettled _ hwidth => ⟨?_, hsettled⟩
  simpa [adderWidthsOk] using hwidth

/-- R180, the XORs. -/
theorem settlesTo_mkInvertBits (v : Env) (invert : Sig) (xs : List Sig) :
    SettlesTo (mkInvertBits v invert xs) fun r e2 => e2.readBus r = onesComp (e2.readSig invert) (e2.readBus xs) := by
  induction xs with
  | nil => exact .pure fun _ => rfl
  | cons x xs ih =>
    refine (settlesTo_mkXor v x invert).bind fun _ => ih.bind fun _ => .pure fun e2 hrest hx => ?_
    simp only [Engine.readBus, onesComp, List.map_cons] at hrest ⊢
    rw [hx, hrest]

/-- R180. -/
theorem settlesTo_mkOnesComp (v : Env) (invert : Sig) (xs : List Sig) :
    SettlesTo (mkOnesComp v invert xs) fun r e2 => e2.readBus r = onesComp (e2.readSig invert) (e2.readBus xs) :=
  (settlesTo_require _ _).bind fun _ => (settlesTo_mkInvertBits v invert xs).mono fun _ _ hsettled _ => hsettled

theorem readBus_length (e : Engine) (xs : List Sig) : (e.readBus xs).length = xs.length := List.length_map _

/-- R181: the unit built from gates computes the settled unit, on buses of one width. -/
theorem settlesTo_mkAddSub (v : Env) (xs ys : List Sig) (sub : Sig) :
    SettlesTo (mkAddSub v xs ys sub) fun r e2 => xs.length = ys.length ∧
      (e2.readBus r.1, e2.readSig r.2.1, e2.readSig r.2.2) = addSub (e2.readBus xs) (e2.readBus ys) (e2.readSig sub) := by
  refine (settlesTo_mkOnesComp v sub ys).bind fun y' => (settlesTo_mkMultiAdder v xs y' sub).bind fun s =>
    (settlesTo_mkXor v sub s.2).bind fun overflow => .pure fun e2 hoverflow hsum hcomp => ?_
  obtain ⟨hwidth, hsum⟩ := hsum
  have hlength := congrArg List.length hcomp
  rw [onesComp_length, readBus_length, readBus_length] at hlength
  rw [addSub, ← hcomp, ← hsum, hoverflow]
  exact ⟨hwidth.trans hlength, rfl⟩

/-- Settles O59: the built adder computes the settled one, of which R179 holds. -/
theorem builtAdderAddsWhenSettled : Obligations.BuiltAdderAddsWhenSettled := by
  intro v xs ys c out e0 e1 e2 hbuild hext hcons
  obtain ⟨hwidth, hsettled⟩ := (settlesTo_mkMultiAdder v xs ys c e0 out e1 hbuild).2 e2 (keeps_of_extendsTo hext) hcons
  simp only [Prod.ext_iff] at hsettled
  obtain ⟨hsum, hcarry⟩ := hsettled
  have hlength : (e2.readBus xs).length = (e2.readBus ys).length := by simpa only [readBus_length] using hwidth
  rw [hsum, hcarry, ← readBus_length e2 xs]
  exact ⟨busValue_multiAdder _ hlength, multiAdder_carry _ hlength⟩

/-- R181 in subtract mode: adding the one's complement with a carry-in adds 2^N less y. -/
theorem addSub_true {xs ys : List Bool} (h : xs.length = ys.length) :
    busValue (addSub xs ys true).1 = (busValue xs + 2 ^ xs.length - busValue ys) % 2 ^ xs.length ∧
      ((addSub xs ys true).2.1 = true ↔ busValue ys ≤ busValue xs) ∧
      ((addSub xs ys true).2.2 = true ↔ busValue xs < busValue ys) := by
  have hwidth : xs.length = (onesComp true ys).length := by simpa using h
  have hcomp := busValue_onesComp_true ys
  rw [← h] at hcomp
  have hcarry : (multiAdder xs (onesComp true ys) true).2 = true ↔ busValue ys ≤ busValue xs := by
    rw [multiAdder_carry true hwidth, Bool.toNat_true]
    omega
  refine ⟨?sum, hcarry, ?overflow⟩
  case sum =>
    rw [addSub, busValue_multiAdder true hwidth, Bool.toNat_true]
    congr 1
    omega
  case overflow =>
    rw [← Nat.not_le, ← hcarry]
    simp only [addSub]
    cases (multiAdder xs (onesComp true ys) true).2 <;> decide

/-- R181 in add mode: the inverter passes y, and overflow is the carry-out. -/
theorem addSub_false {xs ys : List Bool} (h : xs.length = ys.length) :
    busValue (addSub xs ys false).1 = (busValue xs + busValue ys) % 2 ^ xs.length ∧
      ((addSub xs ys false).2.1 = true ↔ 2 ^ xs.length ≤ busValue xs + busValue ys) ∧
      ((addSub xs ys false).2.2 = true ↔ 2 ^ xs.length ≤ busValue xs + busValue ys) := by
  have hoverflow : (addSub xs ys false).2.2 = (addSub xs ys false).2.1 := by
    simp only [addSub]
    cases (multiAdder xs (onesComp false ys) false).2 <;> rfl
  rw [hoverflow]
  simp only [addSub, onesComp_false]
  exact ⟨busValue_multiAdder false h, multiAdder_carry false h, multiAdder_carry false h⟩

/-- Settles O58: the settled unit in its two modes; the built one computes it. -/
theorem addSubtractUnitReportsOverflow : Obligations.AddSubtractUnitReportsOverflow := by
  refine ⟨fun xs ys h => ?settled, fun v xs ys sub out e0 e1 e2 hbuild hext hcons => ?built⟩
  case settled =>
    obtain ⟨hdiff, hnoBorrow, hborrow⟩ := addSub_true h
    exact ⟨hdiff, hnoBorrow, hborrow, addSub_false h⟩
  case built =>
    obtain ⟨hwidth, hsettled⟩ := (settlesTo_mkAddSub v xs ys sub e0 out e1 hbuild).2 e2 (keeps_of_extendsTo hext) hcons
    have hlength : (e2.readBus xs).length = (e2.readBus ys).length := by simpa only [readBus_length] using hwidth
    simp only [Prod.ext_iff] at hsettled
    obtain ⟨hsum, hcarry, hoverflow⟩ := hsettled
    rw [hsum, hcarry, hoverflow, ← readBus_length e2 xs]
    refine ⟨fun hsub => ?subtract, fun hsub => ?add⟩
    case subtract => rw [hsub]; exact addSub_true hlength
    case add => rw [hsub]; exact addSub_false hlength

end Sys2Proof.Machine
end

section
/-! PROOFS. Reset (spec/70_reset_and_hazards.md R430 to R433) and the clock driver's runs (spec/44_clock_driver.md R260 to R268). A clock
period is a phase step between two writes of the clock node: with nothing attached to that node the writes cancel and the runs are runs of
phase steps; in general they touch the engine alone, which no phase step reads. -/

namespace Sys2Proof.Machine

/-! ### Reset. -/

/-- R433: a reset is admitted exactly while CR holds HLT or an undefined opcode. -/
theorem resetAdmitted_iff (s : State) : resetAdmitted s = true ↔ s.cr = 0xFF#8 ∨ undefinedOpcode s.cr = true := by
  cases hundef : undefinedOpcode s.cr with
  | true => simp [resetAdmitted, decodePair_of_undefinedOpcode hundef s.ar]
  | false =>
    obtain ⟨i, hdecode⟩ := exists_decodePair_of_undefinedOpcode_eq_false hundef s.ar
    rw [resetAdmitted, hdecode, (decodePair_eq_ok_iff.mp hdecode).1]
    cases i <;> simp [opcodeOf]

/-- R430: what a reset leaves, where it has a meaning. -/
theorem reset_of_assertReset {s : State} (h : assertReset s = .next (forceReset s)) :
    reset s = .next { s with pc := 0x00#8, ring := .p3, resetLine := false } := by
  rw [reset, h]
  rfl

/-- Settles O45: an admitted reset forces PC and ring, whatever P_RESET_MIDRUN. -/
theorem resetWritesOnlyPcAndRing : Obligations.ResetWritesOnlyPcAndRing := by
  intro s h
  exact reset_of_assertReset (by rw [assertReset, (resetAdmitted_iff s).mpr h]; rfl)

/-- Settles O46: a reset that is not admitted is what P_RESET_MIDRUN chooses. -/
theorem resetDuringAnInstruction : Obligations.ResetDuringAnInstruction := by
  intro s hhlt hdef
  have hnot : resetAdmitted s = false := Bool.eq_false_of_not_eq_true fun h =>
    absurd ((resetAdmitted_iff s).mp h) (by simp [hhlt, hdef])
  refine ⟨fun hrefuse => ?refuse, fun hclean => reset_of_assertReset ?clean⟩
  case refuse => simp [reset, assertReset, hnot, hrefuse]
  case clean => simp [assertReset, hnot, hclean]

/-- Settles O47: at construction CR is 0x00, an undefined opcode, so the reset is admitted. -/
theorem resetStateIsConstructionThenReset : Obligations.ResetStateIsConstructionThenReset :=
  resetWritesOnlyPcAndRing (State.construct Config.spec) (.inr rfl)

/-! ### A quiet clock node. -/

namespace Engine

/-- R144: a node without a tag logs nothing. -/
theorem logAppend_of_untagged {e : Engine} {n : Nat} {d : Node} (hd : e.nodes[n]? = some d) (htag : d.tag = none) :
    logAppend n e = e := by
  simp only [logAppend, hd, htag]

/-- R134: with nothing queued there is nothing to drain. -/
theorem settle_of_empty (v : Env) {e : Engine} (h : e.queue = []) : settle v e = .ok e := by
  simp [settle, h]

/-- `e` with node `n`, which holds `d`, at value `b`. -/
def setValue (n : Nat) (d : Node) (b : Bool) (e : Engine) : Engine := { e with nodes := e.nodes.set n { d with value := b } }

theorem setValue_node {e : Engine} {n : Nat} {d : Node} (hd : e.nodes[n]? = some d) (b : Bool) :
    (setValue n d b e).nodes[n]? = some { d with value := b } :=
  List.getElem?_set_self (List.getElem?_eq_some_iff.mp hd).1

/-- Setting a node twice is setting it the second time. -/
theorem setValue_setValue (e : Engine) (n : Nat) (d : Node) (b c : Bool) :
    setValue n { d with value := b } c (setValue n d b e) = setValue n d c e := by
  simp only [setValue, List.set_set]

theorem setValue_self {e : Engine} {n : Nat} {d : Node} (hd : e.nodes[n]? = some d) : setValue n d d.value e = e := by
  obtain ⟨hn, rfl⟩ := List.getElem?_eq_some_iff.mp hd
  change ({ e with nodes := e.nodes.set n e.nodes[n] } : Engine) = e
  rw [List.set_getElem_self]

/-- R133 at a node with no subscriber and no tag, outside a drain: the node takes the value and nothing else happens. -/
theorem write_of_unattached (v : Env) {e : Engine} {n : Nat} {d : Node} (hd : e.nodes[n]? = some d) (hsubs : d.subs = [])
    (htag : d.tag = none) (hidle : e.idle = true) (b : Bool) : write v n b e = .ok (setValue n d b e) := by
  by_cases hheld : d.value = b
  · subst hheld
    rw [write_of_held v hd, setValue_self hd]
  · have hqueue : (setValue n d b e).queue = [] := by simpa [setValue] using (Bool.and_eq_true_iff.mp hidle).1
    have hpost : post n b e = .ok (setValue n d b e) := by
      have hlog : logAppend n (setValue n d b e) = setValue n d b e := logAppend_of_untagged (setValue_node hd b) htag
      have hposted : post n b e = .ok { logAppend n (setValue n d b e) with
          queue := (logAppend n (setValue n d b e)).queue ++ d.subs.map fun cb => ⟨cb, b, n⟩ } := by
        simp only [post, hd, if_neg hheld]
        rfl
      rw [hposted, hlog, hsubs, List.map_nil, List.append_nil]
    simp only [write, hd, if_neg hheld, hpost, settle_of_empty v hqueue]

end Engine

/-- `quietClock`, taken apart. -/
theorem quietClock_iff {s : State} : s.quietClock = true ↔
    ∃ d, s.engine.nodes[clockNode]? = some d ∧ d.subs = [] ∧ d.tag = none ∧ s.engine.idle = true := by
  unfold State.quietClock
  cases s.engine.nodes[clockNode]? with
  | none => simp
  | some d => simp [and_assoc]

/-! ### No phase reads the engine. -/

theorem State.cpuWrite_setEngine (s : State) (e : Engine) (a v : Byte) : (s.setEngine e).cpuWrite a v = (s.cpuWrite a v).setEngine e := by
  unfold cpuWrite
  rw [setEngine_takeover]
  split <;> rfl

theorem arithP3_setEngine (op : ArithOp) (a : Byte) (s : State) (e : Engine) :
    arithP3 op a (s.setEngine e) = (arithP3 op a s).setEngine e := by
  unfold arithP3 writeback
  rw [apply_ite (fun t => State.setEngine t e), ← State.cpuWrite_setEngine]
  rfl

theorem jumpP3_setEngine (k : JumpCond) (a : Byte) (s : State) (e : Engine) : jumpP3 k a (s.setEngine e) = (jumpP3 k a s).setEngine e := by
  rw [jumpP3_eq_setPc, jumpP3_eq_setPc]
  rfl

theorem exec_setEngine {i : Instr} {s t : State} (h : exec i s = .next t) (e : Engine) :
    exec i (s.setEngine e) = .next (t.setEngine e) := by
  have commutes : ∀ {f : State → State}, (∀ u, exec i u = .next (f u)) → f (s.setEngine e) = (f s).setEngine e →
      exec i (s.setEngine e) = .next (t.setEngine e) := by
    intro f hf hcomm
    rw [hf] at h ⊢
    rw [hcomm, Host.Outcome.next.inj h]
  obtain ⟨a, _, hi⟩ | ⟨a, _, hi⟩ | ⟨op, a, _, hi⟩ | ⟨k, a, hi⟩ | ⟨x, _, hi⟩ := exec_cases i
  · exact commutes hi rfl
  · exact commutes hi (State.cpuWrite_setEngine s e _ _)
  · exact commutes hi (arithP3_setEngine op a s e)
  · exact commutes hi (jumpP3_setEngine k a s e)
  · exact commutes hi rfl

theorem phase3_setEngine {s t : State} (h : phase3 s = .next t) (e : Engine) : phase3 (s.setEngine e) = .next (t.setEngine e) := by
  cases hdecode : decodePair s.cr s.ar with
  | ok i =>
    rw [phase3_of_decode hdecode] at h
    rw [phase3_of_decode (s := s.setEngine e) hdecode]
    exact exec_setEngine h e
  | error r =>
    rw [phase3_of_reject hdecode] at h
    rw [phase3_of_reject (s := s.setEngine e) hdecode, Host.Outcome.next.inj h]

/-- A phase step does not depend on the engine, and carries it along (log 27). -/
theorem phaseStep_setEngine {s t : State} (h : phaseStep s = .next t) (e : Engine) :
    phaseStep (s.setEngine e) = .next (t.setEngine e) := by
  obtain ⟨hreset, ⟨hr, hidle, rfl⟩ | ⟨hr, rfl⟩ | ⟨hr, rfl⟩ | ⟨hr, h3⟩⟩ := phaseStep_cases h
  · rw [phaseStep_of_none (by exact hr) (by exact hreset)]
    simp [unresetStep, hidle]
  · exact phaseStep_of_p3 (s := s.setEngine e) hr hreset
  · exact phaseStep_of_p1 (s := s.setEngine e) hr hreset
  · exact (phaseStep_of_p2 (s := s.setEngine e) hr hreset).trans (phase3_setEngine h3 e)

/-! ### With a quiet clock node, a clock period is a phase step. -/

/-- The two toggles of R261 cancel, and the phase step between them does not see the first. -/
theorem clockPhase_of_quietClock {s t : State} (hquiet : s.quietClock = true) (h : phaseStep s = .next t) : clockPhase s = .next t := by
  obtain ⟨d, hd, hsubs, htag, hidle⟩ := quietClock_iff.mp hquiet
  have ⟨_, _, _, _, _, hengine, _⟩ := (phaseStep_frame h).hostSide
  have hclock : s.clock = d.value := Engine.read_of_node hd
  have hfirst : toggleClock s = .next (s.setEngine (Engine.setValue clockNode d (!d.value) s.engine)) := by
    rw [toggleClock, hclock, Engine.write_of_unattached _ hd hsubs htag hidle]
  have hd' := Engine.setValue_node hd (!d.value)
  have hsecond : toggleClock (t.setEngine (Engine.setValue clockNode d (!d.value) s.engine)) = .next t := by
    have hclock' : (t.setEngine (Engine.setValue clockNode d (!d.value) s.engine)).clock = !d.value := Engine.read_of_node hd'
    rw [toggleClock, hclock', State.setEngine_engine, Engine.write_of_unattached _ hd' hsubs htag hidle, Engine.setValue_setValue,
      Bool.not_not, Engine.setValue_self hd, ← hengine]
    rfl
  rw [clockPhase, hfirst, andThen_next, phaseStep_setEngine h, andThen_next, hsecond]

/-! ### The runs. -/

theorem core_run_succ {s t : State} (h : step s = .next t) (k : Nat) : Sys2Proof.core.run (k + 1) s = Sys2Proof.core.run k t := by
  have hcore : Sys2Proof.core.step s = .next t := h
  have hrun := Host.Core.run.eq_2 Sys2Proof.core s k
  rw [hcore] at hrun
  exact hrun

/-- Nothing keeps a run of phases from being a run of phase steps: reset is released, nothing is attached to the clock node, and no stop
is requested. -/
structure Undisturbed (s : State) : Prop where
  reset : s.resetLine = false
  quiet : s.quietClock = true
  stop : s.stopReq = false

/-- The first phase of an undisturbed run is a phase step, and the rest of it is undisturbed. -/
theorem Undisturbed.phase {s : State} (hs : Undisturbed s) (hring : s.ring ≠ .none) :
    ∃ t, phaseStep s = .next t ∧ t.ring = s.ring.next ∧ Undisturbed t ∧ ∀ n, phasesLoop (n + 1) s = phasesLoop n t := by
  obtain ⟨t, ht, hframe⟩ := phaseStep_completes hring hs.reset
  have ⟨_, _, _, _, hline, hengine, _⟩ := hframe.hostSide
  have hstop : t.stopReq = false := (congrArg Engine.stopReq hengine).trans hs.stop
  have hquiet : t.quietClock = true := by rw [State.quietClock, hengine]; exact hs.quiet
  refine ⟨t, ht, hframe.ring, ⟨hline.trans hs.reset, hquiet, hstop⟩, fun n => ?_⟩
  rw [phasesLoop, clockPhase_of_quietClock hs.quiet ht, andThen_next, if_neg (by simp [hstop])]

/-- Three phases from a boundary are one instruction (R284), and end at a boundary. -/
theorem phasesLoop_eq_core_run (k : Nat) {s : State} (hs : Undisturbed s) (hring : s.ring = .p3) :
    phasesLoop (3 * k) s = Sys2Proof.core.run k s := by
  induction k generalizing s with
  | zero => rfl
  | succ k ih =>
    obtain ⟨t1, h1, hr1, hs1, hrun1⟩ := hs.phase (by simp [hring])
    rw [hring] at hr1
    obtain ⟨t2, h2, hr2, hs2, hrun2⟩ := hs1.phase (by simp [hr1])
    rw [hr1] at hr2
    obtain ⟨t3, h3, hr3, hs3, hrun3⟩ := hs2.phase (by simp [hr2])
    rw [hr2] at hr3
    have hstep : step s = .next t3 := by simp [step, instructionStep, hring, h1, h2, h3]
    have hphases : phasesLoop (3 * (k + 1)) s = phasesLoop (3 * k) t3 := by rw [Nat.mul_succ, hrun1, hrun2, hrun3]
    exact (hphases.trans (ih hs3 hr3)).trans (core_run_succ hstep k).symm

/-- Settles O48: `run_phases` starts by clearing the stop request, which leaves the clock node and the boundary as they were. -/
theorem phasesAndInstructionsAgree : Obligations.PhasesAndInstructionsAgree := fun k _ hring hreset hquiet =>
  phasesLoop_eq_core_run k ⟨hreset, hquiet, rfl⟩ hring

/-- What a loop of R267 that returned did first: one clock period, after which it returned, or went on with less fuel. -/
theorem untilLoop_cases {pred : PhaseState → Bool} {fuel : Nat} {s t : State} (h : untilLoop pred fuel s = .next t) :
    ∃ n u, fuel = n + 1 ∧ clockPhase s = .next u ∧
      (((pred u.phaseState = true ∨ u.stopReq = true) ∧ t = u) ∨
        (pred u.phaseState = false ∧ u.stopReq = false ∧ untilLoop pred n u = .next t)) := by
  cases fuel with
  | zero => cases h
  | succ n =>
    obtain ⟨u, hu, h⟩ := andThen_eq_next.mp h
    refine ⟨n, u, rfl, hu, ?_⟩
    split at h
    · next hhit => exact .inl ⟨Bool.or_eq_true_iff.mp hhit, (Host.Outcome.next.inj h).symm⟩
    · next hmiss => simp only [Bool.or_eq_true, not_or, Bool.not_eq_true] at hmiss; exact .inr ⟨hmiss.1, hmiss.2, h⟩

/-- What every clock period keeps holds where the loop returns, and so does the loop's condition. -/
theorem untilLoop_induction {P : State → Prop} (hP : ∀ s t, P s → clockPhase s = .next t → P t) {pred : PhaseState → Bool} {fuel : Nat}
    {s t : State} (hs : P s) (h : untilLoop pred fuel s = .next t) : P t ∧ (pred t.phaseState = true ∨ t.stopReq = true) := by
  induction fuel generalizing s with
  | zero => cases h
  | succ n ih =>
    obtain ⟨m, u, hfuel, hu, ⟨hhit, rfl⟩ | ⟨_, _, hrest⟩⟩ := untilLoop_cases h
    · exact ⟨hP s t hs hu, hhit⟩
    · obtain rfl := Nat.succ.inj hfuel
      exact ih (hP s u hs hu) hrest

/-- R262: a run of phases whose first phase leaves no stop request goes on. -/
theorem phasesLoop_succ {s u : State} (hu : clockPhase s = .next u) (hstop : u.stopReq = false) (n : Nat) :
    phasesLoop (n + 1) s = phasesLoop n u := by
  rw [phasesLoop, hu, andThen_next, if_neg (by simp [hstop])]

/-- R266: a run of one phase is that phase. -/
theorem phasesLoop_one {s u : State} (hu : clockPhase s = .next u) : phasesLoop 1 s = .next u := by
  rw [phasesLoop, hu, andThen_next]
  split <;> rfl

/-- R267 against R266: the loop returns what the same number of phases leaves, and no shorter run meets the condition. -/
theorem untilLoop_first_hit {pred : PhaseState → Bool} {fuel : Nat} {s t : State} (h : untilLoop pred fuel s = .next t) :
    ∃ n, 1 ≤ n ∧ n ≤ fuel ∧ phasesLoop n s = .next t ∧
      ∀ m u, 1 ≤ m → m < n → phasesLoop m s = .next u → pred u.phaseState = false ∧ u.stopReq = false := by
  induction fuel generalizing s with
  | zero => cases h
  | succ fuel ih =>
    obtain ⟨k, u, hfuel, hu, ⟨_, rfl⟩ | ⟨hmiss, hstop, hrest⟩⟩ := untilLoop_cases h
    · exact ⟨1, le_rfl, Nat.succ_le_succ fuel.zero_le, phasesLoop_one hu, fun m _ hm hlt => by omega⟩
    · obtain rfl := Nat.succ.inj hfuel
      obtain ⟨n, hn, hle, hrun, hearlier⟩ := ih hrest
      refine ⟨n + 1, by omega, by omega, (phasesLoop_succ hu hstop n).trans hrun, fun m w hm hlt hw => ?_⟩
      obtain ⟨m, rfl⟩ : ∃ m', m = m' + 1 := ⟨m - 1, by omega⟩
      cases m with
      | zero =>
        obtain rfl := Host.Outcome.next.inj ((phasesLoop_one hu).symm.trans hw)
        exact ⟨hmiss, hstop⟩
      | succ m => exact hearlier (m + 1) w (by omega) (by omega) ((phasesLoop_succ hu hstop (m + 1)).symm.trans hw)

/-- Settles O49: both runs start by clearing the stop request. -/
theorem runUntilStopsAtTheFirstHit : Obligations.RunUntilStopsAtTheFirstHit := fun _ _ _ _ h =>
  ⟨(untilLoop_induction (P := fun _ => True) (fun _ _ _ _ => trivial) trivial h).2, untilLoop_first_hit h⟩

/-- What is latched within an instruction, with takeover false: after P1 the opcode byte, from the address before PC; after P2 also the
operand byte, from the address behind the opcode's (R281, R282). -/
structure Latched (s : State) : Prop where
  takeover : s.takeover = false
  p1 : s.ring = .p1 → ∃ h : Byte, s.memRead h = s.cr ∧ s.pc = h + 1#8
  p2 : s.ring = .p2 → ∃ h : Byte, s.memRead h = s.cr ∧ s.pc = h + 2#8 ∧ s.ar = s.memRead (h + 1#8)

theorem Latched.setEngine {s : State} (h : Latched s) (e : Engine) : Latched (s.setEngine e) := ⟨h.takeover, h.p1, h.p2⟩

/-- The fetches do not store, so what they latched is still in memory; P3 leaves a boundary, where nothing is claimed. -/
theorem Latched.phaseStep {s t : State} (hs : Latched s) (h : phaseStep s = .next t) : Latched t := by
  have hframe := phaseStep_frame h
  obtain ⟨_, ⟨_, _, rfl⟩ | ⟨_, rfl⟩ | ⟨hr, rfl⟩ | ⟨hr, _⟩⟩ := phaseStep_cases h
  · exact hs
  · rw [phase1_setRing]
    exact ⟨hs.takeover, fun _ => ⟨s.pc, (State.cpuRead_takeover_false hs.takeover s.pc).symm, rfl⟩, nofun⟩
  · obtain ⟨op, hop, hpc⟩ := hs.p1 hr
    rw [phase2_setRing]
    refine ⟨hs.takeover, nofun, fun _ => ⟨op, hop, ?_, ?_⟩⟩
    · show s.pc + 1#8 = op + 2#8
      rw [hpc, BitVec.add_assoc]
      rfl
    · show s.cpuRead s.pc = s.memRead (op + 1#8)
      rw [State.cpuRead_takeover_false hs.takeover, hpc]
  · have hring : t.ring = .p3 := by rw [hframe.ring, hr]; rfl
    exact ⟨hframe.hostSide.1.trans hs.takeover, fun h1 => by simp [hring] at h1, fun h2 => by simp [hring] at h2⟩

theorem Latched.clockPhase {s t : State} (hs : Latched s) (h : clockPhase s = .next t) : Latched t := by
  obtain ⟨e, u, e', hu, rfl⟩ := clockPhase_cases h
  exact ((hs.setEngine e).phaseStep hu).setEngine e'

/-- Settles O50: `run()` starts from a reset, at a boundary, and returns without a stop request only after the P2 of a HLT, where both of
its bytes are latched. -/
theorem runEndsPastTheHltOperand : Obligations.RunEndsPastTheHltOperand := by
  intro fuel s t htake h hstop
  obtain ⟨u, hu, h⟩ := andThen_eq_next.mp h
  obtain ⟨_, rfl⟩ := reset_cases hu
  have hstart : Latched (clearStop ((forceReset s).setResetLine false)) := ⟨htake, nofun, nofun⟩
  obtain ⟨hlatched, hhalted | hrequest⟩ := untilLoop_induction (fun _ _ => Latched.clockPhase) hstart h
  · simp only [halted, Bool.and_eq_true, beq_iff_eq, State.phaseState_cr, State.phaseState_ring] at hhalted
    obtain ⟨hcr, hring⟩ := hhalted
    obtain ⟨op, hop, hpc, har⟩ := hlatched.p2 hring
    exact ⟨hcr, hring, op, hop.trans hcr, hpc, har⟩
  · simp [hstop] at hrequest

end Sys2Proof.Machine
end
